-- ==== Sys2Proof/Word.lean ====
section
/-! DEFINITION. The values of tinybloom_core: unsigned bit vectors of stated widths (00_scope.md
section 6, rule R2), and the command as the command port carries it (30_encoding.md rules R50, R51). -/

namespace Sys2Proof

/-- One byte of the small bitmap or of a digest. -/
abbrev Byte := BitVec 8

/-- The port `cmd_op` (R50): four bits. -/
abbrev Opcode := BitVec 4

/-- The port `cmd_arg` (R50): 256 bits. -/
abbrev Arg := BitVec 256

/-- TinyBitmap, the value held by `TBM` (R11): 16 bits. -/
abbrev TinyBitmap := BitVec 16

/-- TinyIndex (R53, R55): 16 bits, four 4-bit probes. -/
abbrev TinyIndex := BitVec 16

/-- SmallIndex (R53, R56): 32 bits, four 8-bit probe bytes. -/
abbrev SmallIndex := BitVec 32

/-- A probe byte (R32, R56): it addresses one bit of the small bitmap. -/
abbrev ProbeByte := BitVec 8

/-- A byte address of the small bitmap (R30): five bits, so every value is a valid address. -/
abbrev ByteOffset := BitVec 5

/-- A bit position within a byte (R31): three bits. -/
abbrev BitPosition := BitVec 3

/-- A digest as the `DIG` format carries it (R57, R80): byte `d[i]` is bits `8i+7` to `8i`. -/
abbrev Digest := BitVec 256

/-- The port `rsp_data` (R50): 32 bits. -/
abbrev RspData := BitVec 32

/-- The command word `CW[259:0] = op ++ arg` (R51). -/
abbrev CmdWord := BitVec 260

/-- One command as the command port carries it (R50, R51): every command has this one shape. -/
structure Command where
  op : Opcode
  arg : Arg
  deriving DecidableEq, Repr

end Sys2Proof
end

