-- ==== Sys2Proof/Syntax.lean ====
section
/-! DEFINITION. The nine commands of tinybloom_core, one constructor per row of
spec/opcode_table.json, each with the operand its format names (30_encoding.md rules R53, R54). -/

namespace Sys2Proof

/-- A decoded command. The reserved opcodes have no constructor: they take the exception IllegalOp
(R61, R151). -/
inductive Instr where
  /-- NOP (R140): do nothing, answer 0. -/
  | nop
  /-- TSET (R103): record a TinyIndex in `TBM`. -/
  | tset (idx16 : TinyIndex)
  /-- TTEST (R104): test a TinyIndex against `TBM`. -/
  | ttest (idx16 : TinyIndex)
  /-- TRD (R105): read `TBM`. -/
  | trd
  /-- SBSET (R123): set the bit of `SBM` that the probe byte addresses. -/
  | sbset (a : ProbeByte)
  /-- STEST (R122): test a SmallIndex against `SBM`. -/
  | stest (idx32 : SmallIndex)
  /-- SBRD (R124): read one byte of `SBM`. -/
  | sbrd (off : ByteOffset)
  /-- RED16 (R83): reduce a digest to 16 bits. -/
  | red16 (digest : Digest)
  /-- RED32 (R84): reduce a digest to 32 bits. -/
  | red32 (digest : Digest)
  deriving DecidableEq, Repr

end Sys2Proof
end

