-- ==== Sys2Proof/WellFormed.lean ====
section
/-! DEFINITION. Which commands and instructions are legal. The widths of the operands are in their
types; the checks on operands written as numbers (the assembler's, R62) are in Machine/Assembler.lean. -/

namespace Sys2Proof

/-- The seven reserved opcodes of R61: `0x4` and `0xA` to `0xF`. -/
def Opcode.isReserved (op : Opcode) : Bool :=
  [0x4#4, 0xA#4, 0xB#4, 0xC#4, 0xD#4, 0xE#4, 0xF#4].contains op

/-- A command is legal when its opcode is not reserved, whatever its `arg` (R61). -/
def Command.wellFormed (c : Command) : Bool := !Opcode.isReserved c.op

/-- Every instruction is well-formed: "every bit pattern of `arg` is legal for every defined opcode"
(R61; R150 says the same of the nine opcodes), and an operand of another width cannot be written
(Syntax.lean). One line per instruction, so that a new one cannot slip past. Log entry 12. -/
def Instr.wellFormed : Instr → Bool
  | .nop => true
  | .tset _ => true
  | .ttest _ => true
  | .trd => true
  | .sbset _ => true
  | .stest _ => true
  | .sbrd _ => true
  | .red16 _ => true
  | .red32 _ => true

end Sys2Proof
end

