-- ==== Sys2Proof/Decode.lean ====
section
/-! DEFINITION. Decoding a command, total on all command words and rejecting the reserved opcodes by
name, and encoding an instruction (30_encoding.md rules R51 to R54, R57, R58, R61). -/

namespace Sys2Proof

/-- The command word of a command: `CW[259:0] = op ++ arg` (R51). -/
def Command.word (c : Command) : CmdWord := c.op ++ c.arg

/-- The command a command word stands for: `op = CW[259:256]`, `arg = CW[255:0]` (R51). -/
def Command.ofWord (w : CmdWord) : Command :=
  ⟨w.extractLsb' 256 4, w.extractLsb' 0 256⟩

/-- The field `unit = op[3:2]` of an opcode, a reading aid (R52): 0 control and tiny filter, 1 small
filter, 2 hash reducers, 3 none. -/
def Opcode.unitField (op : Opcode) : BitVec 2 := op.extractLsb' 2 2

/-- The field `fn = op[1:0]` of an opcode, a reading aid (R52). -/
def Opcode.fnField (op : Opcode) : BitVec 2 := op.extractLsb' 0 2

/-- The six operand formats of R53. -/
inductive Format where
  | N
  | I16
  | I32
  | BA
  | A5
  | DIG
  deriving DecidableEq, Repr

/-- How many bits of `arg`, from bit 0 up, a format names (R53); the others are ignored (R58). -/
def Format.argBits : Format → Nat
  | .N => 0
  | .I16 => 16
  | .I32 => 32
  | .BA => 8
  | .A5 => 5
  | .DIG => 256

/-- One row of the opcode map (R54): a command whose `op` satisfies `(op & mask) == pattern` has the
row's mnemonic and format. -/
structure OpcodeRow where
  mnemonic : String
  format : Format
  pattern : Opcode
  mask : Opcode
  deriving DecidableEq, Repr

/-- The opcode map of R54, row by row as spec/opcode_table.json lists it. -/
def opcodeRows : List OpcodeRow :=
  [⟨"NOP", .N, 0x0, 0xF⟩, ⟨"TSET", .I16, 0x1, 0xF⟩, ⟨"TTEST", .I16, 0x2, 0xF⟩,
   ⟨"TRD", .N, 0x3, 0xF⟩, ⟨"SBSET", .BA, 0x5, 0xF⟩, ⟨"STEST", .I32, 0x6, 0xF⟩,
   ⟨"SBRD", .A5, 0x7, 0xF⟩, ⟨"RED16", .DIG, 0x8, 0xF⟩, ⟨"RED32", .DIG, 0x9, 0xF⟩]

/-- Whether a row selects an opcode (R54). -/
def OpcodeRow.selects (r : OpcodeRow) (op : Opcode) : Bool := (op &&& r.mask) == r.pattern

/-- The row of an opcode; none for a reserved opcode. -/
def rowOf (op : Opcode) : Option OpcodeRow := opcodeRows.find? (·.selects op)

/-- The bits of `arg` that the format of an opcode names (R53), as a mask; no bit for a reserved
opcode, whose `arg` is ignored entirely (R151). -/
def namedArgBits (op : Opcode) : Arg :=
  match rowOf op with
  | some r => BitVec.ofNat 256 (2 ^ r.format.argBits - 1)
  | none => 0

/-- `idx16 = arg[15:0]` (format I16 of R53). -/
def argIdx16 (arg : Arg) : TinyIndex := arg.extractLsb' 0 16

/-- `idx32 = arg[31:0]` (format I32 of R53). -/
def argIdx32 (arg : Arg) : SmallIndex := arg.extractLsb' 0 32

/-- `a = arg[7:0]` (format BA of R53). -/
def argProbe (arg : Arg) : ProbeByte := arg.extractLsb' 0 8

/-- `off = arg[4:0]` (format A5 of R53). -/
def argOff5 (arg : Arg) : ByteOffset := arg.extractLsb' 0 5

/-- `digest = arg[255:0]` (format DIG of R53). -/
def argDigest (arg : Arg) : Digest := arg

/-- The mnemonic of an instruction, as spec/opcode_table.json spells it (R54). -/
def Instr.mnemonic : Instr → String
  | .nop => "NOP"
  | .tset _ => "TSET"
  | .ttest _ => "TTEST"
  | .trd => "TRD"
  | .sbset _ => "SBSET"
  | .stest _ => "STEST"
  | .sbrd _ => "SBRD"
  | .red16 _ => "RED16"
  | .red32 _ => "RED32"

/-- Why a command decodes to no instruction: its opcode is reserved (R61). It is the cause of the
exception IllegalOp, the only one of the block (R151). -/
inductive DecodeError where
  | illegalOp (op : Opcode)
  deriving DecidableEq, Repr

/-- The decoder (R54, R61): nine opcodes decode to instructions, the seven others are illegal. -/
def decode (c : Command) : Except DecodeError Instr :=
  match c.op.toNat with
  | 0x0 => .ok .nop
  | 0x1 => .ok (.tset (argIdx16 c.arg))
  | 0x2 => .ok (.ttest (argIdx16 c.arg))
  | 0x3 => .ok .trd
  | 0x5 => .ok (.sbset (argProbe c.arg))
  | 0x6 => .ok (.stest (argIdx32 c.arg))
  | 0x7 => .ok (.sbrd (argOff5 c.arg))
  | 0x8 => .ok (.red16 (argDigest c.arg))
  | 0x9 => .ok (.red32 (argDigest c.arg))
  | _ => .error (.illegalOp c.op)

/-- The decoder on command words: total on all 2^260 of them (R61). -/
def decodeWord (w : CmdWord) : Except DecodeError Instr := decode (Command.ofWord w)

/-- The encoder: the opcode of R54 and the operand in the low bits of `arg` (R53), the other bits
zero as the assembler emits them (R58, R62). -/
def encode : Instr → Command
  | .nop => ⟨0x0, 0⟩
  | .tset idx16 => ⟨0x1, idx16.setWidth 256⟩
  | .ttest idx16 => ⟨0x2, idx16.setWidth 256⟩
  | .trd => ⟨0x3, 0⟩
  | .sbset a => ⟨0x5, a.setWidth 256⟩
  | .stest idx32 => ⟨0x6, idx32.setWidth 256⟩
  | .sbrd off => ⟨0x7, off.setWidth 256⟩
  | .red16 digest => ⟨0x8, digest⟩
  | .red32 digest => ⟨0x9, digest⟩

/-- The encoder to command words (R51). -/
def encodeWord (i : Instr) : CmdWord := (encode i).word

/-- The command of a table word: spec/opcode_table.json numbers the four bits of `op` as bits 3 to 0,
and gives `arg` no number of its own, so `arg` counts on from bit 4. Only the low `nbits` bits of `w`
count; every bit above is 0. DESIGN CHOICE, log entry 7: safe, a matter of this interface only. -/
def Command.ofTableWord (nbits w : Nat) : Command :=
  ⟨BitVec.ofNat 4 (w % 2 ^ nbits), BitVec.ofNat 256 (w % 2 ^ nbits / 16)⟩

/-- The instruction the decoder reads from a table word; none where it refuses. -/
def decodeTableWord (nbits w : Nat) : Option Instr :=
  match decode (Command.ofTableWord nbits w) with
  | .ok i => some i
  | .error _ => none

end Sys2Proof
end

