-- ==== Sys2Proof/Config.lean ====
section
/-! DEFINITION. What an implementation of tinybloom_core fixes. The sizes of R2 are fixed by the
types of Word.lean; nothing is configurable at run time (R2, R21). -/

namespace Sys2Proof

/-- The two readings of the bytes of a 64-bit word of `reduceSmall` (93_implementation_defined.md U7,
91_not_in_source.md N2): least-significant byte first, or most-significant byte first. -/
inductive ByteOrder where
  | little
  | big
  deriving DecidableEq, Repr

/-- The byte order of the 64-bit words of `reduce32`: little-endian, as R82 and R34 state
(decision D11 of the spec). DEDUCED, log entry 9: unsafe against the original JavaScript, as D11 says. -/
def Config.reduce32ByteOrder : ByteOrder := .little

/-- The open parameter `CMD_LATENCY` (00_scope.md section 4, R177, D23): a positive number of clock
cycles that may differ between opcodes. It is a constant without a body, and no definition of the
model depends on it, as R177 says of the rules. DESIGN CHOICE, log entry 8: safe. -/
opaque Config.cmdLatency : Opcode → ℕ+

end Sys2Proof
end

