-- ==== Sys2Proof/Machine/Operands.lean ====
section
/-! DEFINITION. The operand decompositions of the block: probes of an index, slot and bit position of
a probe byte, bytes of a digest, zero extension (30_encoding.md rules R55 to R57, R59; 20_memory.md
rule R32), and what they feed: `tiny_mask` (41_tiny_filter.md R100) and the two reduction functions
(40_hash_reducers.md R81, R82). -/

namespace Sys2Proof.Machine

/-- `zext_32(v)` (R59; 00_scope.md section 6). -/
def zext32 {n : Nat} (v : BitVec n) : RspData := v.setWidth 32

/-- `probe4(h, i) = (h >> 4*i) & 0xF` (R55). -/
def probe4 (h : TinyIndex) (i : Fin 4) : BitVec 4 := ((h >>> (4 * i.val)) &&& 0xF#16).setWidth 4

/-- `probe8(v, i) = (v >> 8*i) & 0xFF` (R56); the shift is logical. -/
def probe8 (v : SmallIndex) (i : Fin 4) : ProbeByte := ((v >>> (8 * i.val)) &&& 0xFF#32).setWidth 8

/-- `slot(a) = (a >> 3) & 0x1F`, the byte offset a probe byte addresses (R32). -/
def slot (a : ProbeByte) : ByteOffset := ((a >>> 3) &&& 0x1F#8).setWidth 5

/-- `bitpos(a) = a & 0x7`, the bit position a probe byte addresses (R32). -/
def bitpos (a : ProbeByte) : BitPosition := (a &&& 0x7#8).setWidth 3

/-- The single-bit mask `1 << bit` of a bit position within a byte (R31). -/
def bitMask (bit : BitPosition) : Byte := 0x01#8 <<< bit

/-- `dbyte(arg, i) = arg[8i+7:8i]`, byte `i` of a digest, written `d[i]` (R57). -/
def dbyte (d : Digest) (i : Nat) : Byte := d.extractLsb' (8 * i) 8

/-- `tiny_mask(h)`: the bit of each of the four probes of `h`, and no other (R100). -/
def tinyMask (h : TinyIndex) : TinyBitmap :=
  (0x0001#16 <<< probe4 h 0) ||| (0x0001#16 <<< probe4 h 1) |||
  (0x0001#16 <<< probe4 h 2) ||| (0x0001#16 <<< probe4 h 3)

/-- `w16(j)`: the 16-bit word of bytes `d[2j]` (low) and `d[2j+1]` (high) (R81). -/
def word16 (d : Digest) (j : Nat) : BitVec 16 :=
  (dbyte d (2 * j)).setWidth 16 ||| ((dbyte d (2 * j + 1)).setWidth 16 <<< 8)

/-- `reduce16(d)`: the XOR of the sixteen 16-bit words of the digest (R81). -/
def reduce16 (d : Digest) : TinyIndex :=
  (List.range 16).foldl (fun x j => x ^^^ word16 d j) 0

/-- Where byte `i` of a 64-bit word goes: the least significant byte first, or the most significant
byte first (R82; 93_implementation_defined.md U7). -/
def byteShift : ByteOrder → Nat → Nat
  | .little, i => 8 * i
  | .big, i => 8 * (7 - i)

/-- `b(k)`: the 64-bit word of bytes `d[8k]` to `d[8k+7]`, in a byte order (R82). -/
def word64 (o : ByteOrder) (d : Digest) (k : Nat) : BitVec 64 :=
  (List.range 8).foldl (fun x i => x ||| ((dbyte d (8 * k + i)).setWidth 64 <<< byteShift o i)) 0

/-- `reduceSmall` for a byte order of the 64-bit words: `x` is the XOR of the four words in the
grouping the source gives, folded high half onto low half (R82). -/
def reduce32With (o : ByteOrder) (d : Digest) : SmallIndex :=
  let xe := word64 o d 0 ^^^ word64 o d 2
  let xo := word64 o d 1 ^^^ word64 o d 3
  let x := xe ^^^ xo
  x.extractLsb' 32 32 ^^^ x.extractLsb' 0 32

/-- `reduce32(d)` (R82), with the byte order the spec decides (D11). -/
def reduce32 (d : Digest) : SmallIndex := reduce32With Config.reduce32ByteOrder d

end Sys2Proof.Machine
end

