-- ==== Sys2Proof/Machine/Flags.lean ====
section
/-! DEFINITION. The outcome of a filter test. The block holds no flags (10_state.md rule R20): a
FilterResult leaves in the response and is not latched. Its codes are 30_encoding.md rule R60. -/

namespace Sys2Proof.Machine

/-- FilterResult (R60), with the source's spelling of its four members. The block produces
`notFound` and `mayExist` only; `unknown` and `exitMember` (`EXIT`) are for callers. -/
inductive FilterResult where
  | unknown
  | notFound
  | mayExist
  | exitMember
  deriving DecidableEq, Repr

/-- The 2-bit codes: `UNKNOWN = 0b00`, `NOT_FOUND = 0b01`, `MAY_EXIST = 0b10`, `EXIT = 0b11` (R60). -/
def FilterResult.code : FilterResult → BitVec 2
  | .unknown => 0b00
  | .notFound => 0b01
  | .mayExist => 0b10
  | .exitMember => 0b11

/-- `tiny_test(B, h)`: MAY_EXIST when every probe bit of `h` is set in `B` (R102). -/
def tinyTest (bitmap : TinyBitmap) (h : TinyIndex) : FilterResult :=
  if bitmap &&& tinyMask h = tinyMask h then .mayExist else .notFound

end Sys2Proof.Machine
end

