-- ==== Sys2Proof/Machine/State.lean ====
section
/-! DEFINITION. The state of the model: the two bitmaps, which are the whole architectural state of
the block (10_state.md rule R10), the response port, and the host's side of the interface as plain
data (R4, R18, R179); the ways a step can stop; and the state right after reset (R24, R170, R171). -/

namespace Sys2Proof.Machine

/-- The small bitmap `SBM` as address and byte pairs in canonical form (`Memory.wf`). -/
abbrev Memory := List Host.Cell

/-- What an unlisted address reads as: the reset contents 0x00 (R24, R170; decision D5 of the spec).
Log entry 6. -/
def Memory.unlistedByte : Byte := 0x00

/-- The addresses of the listed bytes rise strictly from `low` on, stay within the 32 bytes of R30,
and no listed byte equals what an unlisted address reads as. -/
def Memory.wfFrom : Nat → Memory → Bool
  | _, [] => true
  | low, (k, b) :: m =>
    decide (low ≤ k) && decide (k < 32) && (b != Memory.unlistedByte) && Memory.wfFrom (k + 1) m

/-- The canonical form: equal small bitmaps are equal lists. -/
def Memory.wf (m : Memory) : Bool := Memory.wfFrom 0 m

/-- A response `(rsp_err, rsp_data)` (R59). -/
structure Response where
  /-- `rsp_err`: true where the command was refused as illegal (R50). -/
  err : Bool
  /-- `rsp_data` (R50, R59). -/
  data : RspData
  deriving DecidableEq, Repr

/-- What the host does at the block's ports, one event a step (R4, R50, R154). -/
inductive HostEvent where
  /-- A command is offered outside reset; it is accepted (R50, R178). -/
  | command (c : Command)
  /-- Reset is requested and no command is offered (R170). -/
  | reset
  /-- Reset is requested while a command is offered; the command is not accepted (R154, R173). -/
  | resetWithCommand (c : Command)
  deriving DecidableEq, Repr

/-- The state of the model. The block's own state is `tbm` and `sbm` alone (R10, R22). -/
structure State where
  /-- `TBM`, the tiny bitmap register (R11). -/
  tbm : TinyBitmap
  /-- `SBM`, the 32 bytes of the small bitmap (R15, R30). -/
  sbm : Memory
  /-- The response port (R50): `none` is `rsp_valid` = 0, `some r` shows the response `r` of the
  last command. Log entry 2. -/
  rsp : Option Response
  /-- The model's own: every response the host has observed, oldest first (R179). Log entry 2. -/
  received : List Response
  /-- The model's own: the host's events still to come, the next one first (R18, R38). Log entry 1. -/
  pending : List HostEvent
  /-- The model's own: a reset has occurred since power was applied (R25, R172). Log entry 3. -/
  hasReset : Bool
  deriving DecidableEq, Repr

/-- A fault would end the run. No step of this block does: no defined command can fail (R150), and
IllegalOp is a response after which the block goes on (R151, R156). So there is no constructor, and
nobody raises one. Log entry 10: safe. -/
inductive Fault where
  deriving DecidableEq, Repr

/-- Where the model gives no next state. -/
inductive Refusal where
  /-- An instruction without a meaning yet, raised by exec's arm alone: safe. -/
  | notModelled (mnemonic : String)
  /-- Raised by the step when the host offers neither a command nor a reset: the block has no step
  then (R4), and the run has ended (R179). Log entry 1: safe. -/
  | noEventOffered
  /-- Raised by the step when a command is offered before the first reset: no command is admitted
  (R25, R172). Log entry 3: safe. -/
  | beforeFirstReset
  deriving DecidableEq, Repr

/-- The machine right after reset: both bitmaps clear, no response pending (R24, R171); nothing
offered and nothing observed yet, a reset having occurred (log entries 1 to 3). -/
def State.reset : State where
  tbm := 0x0000
  sbm := []
  rsp := none
  received := []
  pending := []
  hasReset := true

end Sys2Proof.Machine
end

