-- ==== Sys2Proof/Machine/Ops.lean ====
section
/-! DEFINITION. The operations the instructions share: reading and writing a byte of the small bitmap
(00_scope.md section 6), its bit and vector views (20_memory.md R31, R33), the value functions of the
two filters (41_tiny_filter.md R101, 42_small_filter.md R120, R121), answering a command, the one
exception of the block (60_exceptions.md R151), and reset (70_reset_and_hazards.md R170). -/

namespace Sys2Proof.Machine

/-- The byte a memory holds at an address. -/
def Memory.lookup : Memory → Nat → Byte
  | [], _ => Memory.unlistedByte
  | (k, b) :: m, a => if k = a then b else Memory.lookup m a

/-- Put a byte at an address, keeping the canonical form: writing what an unlisted address reads as
removes the entry. -/
def Memory.put : Memory → Nat → Byte → Memory
  | [], a, v => if v = Memory.unlistedByte then [] else [(a, v)]
  | (k, b) :: m, a, v =>
    if a < k then
      if v = Memory.unlistedByte then (k, b) :: m else (a, v) :: (k, b) :: m
    else if a = k then
      if v = Memory.unlistedByte then m else (a, v) :: m
    else (k, b) :: Memory.put m a v

/-- `MemRead(addr, 1)`: the byte `SBM[addr]`; every 5-bit address exists (R30, R35). -/
def memRead (m : Memory) (addr : ByteOffset) : Byte := m.lookup addr.toNat

/-- `MemWrite(addr, 1, v)`: `SBM[addr] <- v`. -/
def memWrite (m : Memory) (addr : ByteOffset) (v : Byte) : Memory := m.put addr.toNat v

/-- `(S[off] >> bit) & 1`, the bit at a byte offset and a bit position (R31, R120). -/
def memBit (m : Memory) (off : ByteOffset) (bit : BitPosition) : Bool :=
  ((memRead m off >>> bit) &&& 0x01#8) == 0x01#8

/-- The bit a probe byte addresses (R32). -/
def probeBit (m : Memory) (a : ProbeByte) : Bool := memBit m (slot a) (bitpos a)

/-- The small bitmap as one 256-bit vector `SBM[31] ++ ... ++ SBM[0]` (R33). -/
def sbmVector (m : Memory) : BitVec 256 :=
  (List.range 32).foldl
    (fun x k => x ||| ((memRead m (BitVec.ofNat 5 k)).setWidth 256 <<< (8 * k))) 0

/-- `tiny_update(B, h) = B | tiny_mask(h)` (R101). -/
def tinyUpdate (bitmap : TinyBitmap) (h : TinyIndex) : TinyBitmap := bitmap ||| tinyMask h

/-- `small_test(S, v)`: MAY_EXIST when all four addressed bits are set (R120). -/
def smallTest (m : Memory) (v : SmallIndex) : FilterResult :=
  if probeBit m (probe8 v 0) && probeBit m (probe8 v 1) &&
     probeBit m (probe8 v 2) && probeBit m (probe8 v 3)
  then .mayExist else .notFound

/-- The byte `S[off] | (1 << bit)` that setting a bit leaves (R121). -/
def smallSetByte (m : Memory) (off : ByteOffset) (bit : BitPosition) : Byte :=
  memRead m off ||| bitMask bit

/-- `small_setbit(S, off, bit)`: `S` with byte `off` replaced by `S[off] | (1 << bit)` (R121). -/
def smallSetbit (m : Memory) (off : ByteOffset) (bit : BitPosition) : Memory :=
  memWrite m off (smallSetByte m off bit)

/-- `TBM <- v`. -/
def State.writeTbm (s : State) (v : TinyBitmap) : State := { s with tbm := v }

/-- `SBM <- m`. -/
def State.writeSbm (s : State) (m : Memory) : State := { s with sbm := m }

/-- The host's events, replaced: what it still has to offer. -/
def State.offer (s : State) (es : List HostEvent) : State := { s with pending := es }

/-- A response goes out: it stands on the response port and the host observes it (R50, R179). -/
def State.give (s : State) (r : Response) : State :=
  { s with rsp := some r, received := s.received ++ [r] }

/-- `respond(v)`: the step ends with `rsp_err = 0` and `rsp_data = zext_32(v)` (R59). -/
def respond {n : Nat} (v : BitVec n) (s : State) : State := s.give ⟨false, zext32 v⟩

/-- `raise IllegalOp()` (R151): `TBM` and `SBM` unchanged, `rsp_err = 1`, `rsp_data = 0`, nothing
recorded. There is no handler and no return: the block goes on with the next command (R155, R156).
Log entry 5. -/
def raiseIllegalOp (s : State) : State := s.give ⟨true, 0⟩

/-- The reset step (R170, R171): both bitmaps cleared, no response pending and none produced. -/
def resetBlock (s : State) : State :=
  { s with tbm := 0x0000, sbm := [], rsp := none, hasReset := true }

/-- A block to which power was applied and that was never reset: its bitmaps hold anything (R25). -/
def State.powerOn (t : TinyBitmap) (m : Memory) : State :=
  { State.reset with tbm := t, sbm := m, hasReset := false }

/-- `cmd_ready`: a command can be accepted, that is, reset is not requested and a reset has occurred
(R50, R172, R173). -/
def cmdReady (s : State) : Bool :=
  s.hasReset &&
    match s.pending with
    | .reset :: _ => false
    | .resetWithCommand _ :: _ => false
    | .command _ :: _ => true
    | [] => true

/-- `rsp_valid`: a response is present (R50). -/
def rspValid (s : State) : Bool := s.rsp.isSome

end Sys2Proof.Machine
end

