-- ==== Sys2Proof/Machine/Control.lean ====
section
/-! DEFINITION. The control command NOP (43_control.md). -/

namespace Sys2Proof.Machine

/-- NOP (R140): it writes nothing and answers the constant 0. -/
def execNop (s : State) : Host.Outcome State Fault Refusal :=
  .next (respond (0 : RspData) s)

end Sys2Proof.Machine
end

