-- ==== Sys2Proof/Machine/HashReducers.lean ====
section
/-! DEFINITION. The commands of the hash reducers: RED16, RED32 (40_hash_reducers.md). They hold no
state and keep no digest (R80). -/

namespace Sys2Proof.Machine

/-- RED16 (R83): it writes nothing and answers `reduce16(d)`. -/
def execRed16 (d : Digest) (s : State) : Host.Outcome State Fault Refusal :=
  .next (respond (reduce16 d) s)

/-- RED32 (R84): it writes nothing and answers `reduce32(d)`. -/
def execRed32 (d : Digest) (s : State) : Host.Outcome State Fault Refusal :=
  .next (respond (reduce32 d) s)

end Sys2Proof.Machine
end

