-- ==== Sys2Proof/Machine/SmallFilter.lean ====
section
/-! DEFINITION. The commands of the small Bloom filter: STEST, SBSET, SBRD (42_small_filter.md). -/

namespace Sys2Proof.Machine

/-- STEST (R122): it writes nothing and answers the code of `small_test(SBM, v)`. -/
def execStest (v : SmallIndex) (s : State) : Host.Outcome State Fault Refusal :=
  .next (respond (smallTest s.sbm v).code s)

/-- SBSET (R123): `SBM <- small_setbit(SBM, slot(a), bitpos(a))`; it answers the new byte. -/
def execSbset (a : ProbeByte) (s : State) : Host.Outcome State Fault Refusal :=
  let new := smallSetByte s.sbm (slot a) (bitpos a)
  .next (respond new (s.writeSbm (smallSetbit s.sbm (slot a) (bitpos a))))

/-- SBRD (R124): it writes nothing and answers `SBM[off]`. -/
def execSbrd (off : ByteOffset) (s : State) : Host.Outcome State Fault Refusal :=
  .next (respond (memRead s.sbm off) s)

end Sys2Proof.Machine
end

