-- ==== Sys2Proof/Machine/TinyFilter.lean ====
section
/-! DEFINITION. The commands of the tiny Bloom filter: TSET, TTEST, TRD (41_tiny_filter.md). -/

namespace Sys2Proof.Machine

/-- TSET (R103): `TBM <- tiny_update(TBM, h)`; it answers the new bitmap. -/
def execTset (h : TinyIndex) (s : State) : Host.Outcome State Fault Refusal :=
  let new := tinyUpdate s.tbm h
  .next (respond new (s.writeTbm new))

/-- TTEST (R104): it writes nothing and answers the code of `tiny_test(TBM, h)`. -/
def execTtest (h : TinyIndex) (s : State) : Host.Outcome State Fault Refusal :=
  .next (respond (tinyTest s.tbm h).code s)

/-- TRD (R105): it writes nothing and answers `TBM`. -/
def execTrd (s : State) : Host.Outcome State Fault Refusal :=
  .next (respond s.tbm s)

end Sys2Proof.Machine
end

