-- ==== Sys2Proof/Machine/Dispatch.lean ====
section
/-! DEFINITION. Every instruction's meaning, one arm per constructor (43_control.md rule R141). -/

namespace Sys2Proof.Machine

def exec (i : Instr) (s : State) : Host.Outcome State Fault Refusal :=
  match i with
  | .nop => Sys2Proof.Machine.execNop s
  | .tset idx16 => Sys2Proof.Machine.execTset idx16 s
  | .ttest idx16 => Sys2Proof.Machine.execTtest idx16 s
  | .trd => Sys2Proof.Machine.execTrd s
  | .sbset a => Sys2Proof.Machine.execSbset a s
  | .stest idx32 => Sys2Proof.Machine.execStest idx32 s
  | .sbrd off => Sys2Proof.Machine.execSbrd off s
  | .red16 digest => Sys2Proof.Machine.execRed16 digest s
  | .red32 digest => Sys2Proof.Machine.execRed32 digest s

end Sys2Proof.Machine
end

