-- ==== Sys2Proof/Machine/Port.lean ====
section
/-! DEFINITION. The command port and the reset pin: what one event of the host does to the block
(43_control.md rule R141, 60_exceptions.md R154, 70_reset_and_hazards.md R170 to R173). -/

namespace Sys2Proof.Machine

/-- The execution of an accepted command (R141): a defined opcode has its instruction's effect, a
reserved one raises IllegalOp (R151). -/
def execCommand (c : Command) (s : State) : Host.Outcome State Fault Refusal :=
  match decode c with
  | .ok i => exec i s
  | .error (.illegalOp _) => .next (raiseIllegalOp s)

/-- One event of the host. A reset wins over a command offered with it (R154, R173; log entry 4);
before the first reset no command is admitted (R172). -/
def takeEvent (e : HostEvent) (s : State) : Host.Outcome State Fault Refusal :=
  match e with
  | .reset => .next (resetBlock s)
  | .resetWithCommand _ => .next (resetBlock s)
  | .command c => if s.hasReset then execCommand c s else .refused .beforeFirstReset

end Sys2Proof.Machine
end

