-- ==== Sys2Proof/Machine/Step.lean ====
section
/-! DEFINITION. One step of the model: the next event of the host, a command or a reset, as one atomic
step (00_scope.md rule R4). -/

namespace Sys2Proof.Machine

/-- One step: the host's next event leaves the list of events to come and takes effect. Without an
event there is no step (R4, R179; log entry 1). -/
def step (s : State) : Host.Outcome State Fault Refusal :=
  match s.pending with
  | [] => .refused .noEventOffered
  | e :: es => takeEvent e (s.offer es)

/-- The state in which the host offers the command of a table word next, to a block that has been
reset: what stands for fetching here, since the block fetches nothing (R18). Log entries 1, 3, 7. -/
def State.withFetchWord (s : State) (nbits w : Nat) : State :=
  { s with pending := .command (Command.ofTableWord nbits w) :: s.pending, hasReset := true }

end Sys2Proof.Machine
end

