-- ==== Sys2Proof/Machine/Assembler.lean ====
section
/-! DEFINITION. The assembler of the host's command scripts: the text, the statements it stands for,
the checks on their operands, and the host events they assemble to (30_encoding.md rules R62, R63).
It is host software; the block knows nothing of it (R63, decision D24 of the spec). -/

namespace Sys2Proof.Machine

/-- A command, pseudo-instruction or directive of R62 and R63, its integers as written. A digest is
its hexadecimal digits in reading order. -/
inductive AsmStmt where
  | nop
  | trd
  | tset (idx16 : Nat)
  | ttest (idx16 : Nat)
  | stest (idx32 : Nat)
  | sbset (a : Nat)
  /-- `SBSET off, bit`, assembled as `SBSET (off << 3 | bit)`. -/
  | sbsetAt (off bit : Nat)
  | sbrd (off : Nat)
  | red16 (digits : List Nat)
  | red32 (digits : List Nat)
  /-- `SSET v`: four SBSETs of the probe bytes of `v`. -/
  | sset (v : Nat)
  /-- `TBIT b`: one TSET of the index with all four nibbles `b`. -/
  | tbit (b : Nat)
  /-- `RESET`: one reset event, no command. -/
  | reset
  /-- `.RAW op, arg`: the command word with that opcode and operand. -/
  | raw (op arg : Nat)
  deriving DecidableEq, Repr

/-- What a line expects of its response: `=> expect` of R62. -/
inductive Expectation where
  | value (n : Nat)
  | notFound
  | mayExist
  | err
  deriving DecidableEq, Repr

/-- A line of a script: at most one statement, and at most one expectation (R62). -/
structure ScriptLine where
  stmt : Option AsmStmt
  expect : Option Expectation
  deriving DecidableEq, Repr

/-- Why the assembler refuses a line. -/
inductive AsmError where
  /-- The text is not a line of R62's grammar. -/
  | notALine
  /-- An operand does not fit its width; it is not truncated (R62). -/
  | operandDoesNotFit
  /-- A digest literal is not exactly 64 hexadecimal digits (R62). -/
  | notADigest
  /-- An expectation on a line that does not give exactly one response (R63 for `SSET`; log entry 11
  for `RESET` and a line without a statement). -/
  | expectationNotAllowed
  deriving DecidableEq, Repr

/-- `int<N>`: the value fits in `n` bits (R62). -/
def fits (n v : Nat) : Bool := decide (v < 2 ^ n)

/-- A digest literal: exactly 64 hexadecimal digits (R62). -/
def isDigest (digits : List Nat) : Bool := digits.length == 64 && digits.all (fits 4)

/-- The check on a statement's operands (R62, R63). -/
def AsmStmt.check : AsmStmt → Except AsmError Unit
  | .nop | .trd | .reset => .ok ()
  | .tset n | .ttest n => if fits 16 n then .ok () else .error .operandDoesNotFit
  | .stest n | .sset n => if fits 32 n then .ok () else .error .operandDoesNotFit
  | .sbset n => if fits 8 n then .ok () else .error .operandDoesNotFit
  | .sbsetAt off bit => if fits 5 off && fits 3 bit then .ok () else .error .operandDoesNotFit
  | .sbrd n => if fits 5 n then .ok () else .error .operandDoesNotFit
  | .red16 ds | .red32 ds => if isDigest ds then .ok () else .error .notADigest
  | .tbit n => if fits 4 n then .ok () else .error .operandDoesNotFit
  | .raw op arg => if fits 4 op && fits 256 arg then .ok () else .error .operandDoesNotFit

/-- The digest a literal stands for: digits `2i` and `2i+1` are `d[i]`, high nibble first, and `d[i]`
goes to `arg[8i+7:8i]` (R57, R62). -/
def digestOfDigits : List Nat → Nat
  | hi :: lo :: ds => (16 * hi + lo) + 256 * digestOfDigits ds
  | _ => 0

/-- The index with all four nibbles equal to `b`: `b | b << 4 | b << 8 | b << 12` (R63). -/
def allNibbles (b : BitVec 4) : TinyIndex :=
  b.setWidth 16 ||| (b.setWidth 16 <<< 4) ||| (b.setWidth 16 <<< 8) ||| (b.setWidth 16 <<< 12)

/-- The probe byte of `SBSET off, bit`: `off << 3 | bit` (R62). -/
def probeOf (off : ByteOffset) (bit : BitPosition) : ProbeByte :=
  (off.setWidth 8 <<< 3) ||| bit.setWidth 8

/-- The commands `SSET v` expands to, in R63's order. -/
def ssetCommands (v : SmallIndex) : List Command :=
  [encode (.sbset (probe8 v 0)), encode (.sbset (probe8 v 1)),
   encode (.sbset (probe8 v 2)), encode (.sbset (probe8 v 3))]

/-- The host events of a statement whose operands fit. -/
def AsmStmt.events : AsmStmt → List HostEvent
  | .nop => [.command (encode .nop)]
  | .trd => [.command (encode .trd)]
  | .tset n => [.command (encode (.tset (BitVec.ofNat 16 n)))]
  | .ttest n => [.command (encode (.ttest (BitVec.ofNat 16 n)))]
  | .stest n => [.command (encode (.stest (BitVec.ofNat 32 n)))]
  | .sbset n => [.command (encode (.sbset (BitVec.ofNat 8 n)))]
  | .sbsetAt off bit =>
    [.command (encode (.sbset (probeOf (BitVec.ofNat 5 off) (BitVec.ofNat 3 bit))))]
  | .sbrd n => [.command (encode (.sbrd (BitVec.ofNat 5 n)))]
  | .red16 ds => [.command (encode (.red16 (BitVec.ofNat 256 (digestOfDigits ds))))]
  | .red32 ds => [.command (encode (.red32 (BitVec.ofNat 256 (digestOfDigits ds))))]
  | .sset n => (ssetCommands (BitVec.ofNat 32 n)).map .command
  | .tbit n => [.command (encode (.tset (allNibbles (BitVec.ofNat 4 n))))]
  | .reset => [.reset]
  | .raw op arg => [.command ⟨BitVec.ofNat 4 op, BitVec.ofNat 256 arg⟩]

/-- How many responses a statement brings: one per command, none for a reset (R50, R62, R170). -/
def AsmStmt.responses : AsmStmt → Nat
  | .reset => 0
  | .sset _ => 4
  | _ => 1

/-- Assembling a statement: its events, or the reason it is refused (R62). -/
def AsmStmt.assemble (a : AsmStmt) : Except AsmError (List HostEvent) :=
  match a.check with
  | .ok _ => .ok a.events
  | .error e => .error e

/-- The check on an expectation: an integer fits in 32 bits (R62). -/
def Expectation.check : Expectation → Except AsmError Unit
  | .value n => if fits 32 n then .ok () else .error .operandDoesNotFit
  | .notFound | .mayExist | .err => .ok ()

/-- The response an expectation states (R62). -/
def Expectation.response : Expectation → Response
  | .value n => ⟨false, BitVec.ofNat 32 n⟩
  | .notFound => ⟨false, zext32 FilterResult.notFound.code⟩
  | .mayExist => ⟨false, zext32 FilterResult.mayExist.code⟩
  | .err => ⟨true, 0⟩

/-- How many responses a line brings. -/
def ScriptLine.responses (l : ScriptLine) : Nat :=
  match l.stmt with
  | some a => a.responses
  | none => 0

/-- Assembling a line: its events and the response it expects. An expectation stands only where there
is exactly one response (R63; log entry 11). -/
def ScriptLine.assemble (l : ScriptLine) : Except AsmError (List HostEvent × Option Response) := do
  let events ← match l.stmt with
    | some a => a.assemble
    | none => .ok []
  match l.expect with
  | none => .ok (events, none)
  | some e =>
    e.check
    if l.responses = 1 then .ok (events, some e.response) else .error .expectationNotAllowed

/-- Assembling a script: the events of its lines, in order. -/
def assembleScript : List ScriptLine → Except AsmError (List HostEvent)
  | [] => .ok []
  | l :: ls => do
    let (events, _) ← l.assemble
    let rest ← assembleScript ls
    .ok (events ++ rest)

/-- A word of a line's text. -/
abbrev Token := List Char

/-- Add a finished word, if there is one. -/
def pushToken (cur : Token) (rest : List Token) : List Token :=
  if cur.isEmpty then rest else cur :: rest

/-- The words of a line: blanks and tabs separate them, a comma and `=>` are words of their own, and a
semicolon starts a comment that runs to the end of the line (R62; log entry 11). -/
def tokens : Token → List Char → List Token
  | cur, [] => pushToken cur []
  | cur, '=' :: '>' :: cs => pushToken cur (['=', '>'] :: tokens [] cs)
  | cur, c :: cs =>
    if c = ';' then pushToken cur []
    else if c = ',' then pushToken cur ([','] :: tokens [] cs)
    else if c = ' ' ∨ c = '\t' then pushToken cur (tokens [] cs)
    else tokens (cur ++ [c]) cs

/-- The value of a hexadecimal digit, in either case (log entry 11). -/
def hexDigit (c : Char) : Option Nat :=
  let n := c.toNat
  if 48 ≤ n ∧ n ≤ 57 then some (n - 48)
  else if 97 ≤ n ∧ n ≤ 102 then some (n - 87)
  else if 65 ≤ n ∧ n ≤ 70 then some (n - 55)
  else none

/-- The digits of a word in a base; none if a character is no digit of it. -/
def digitsOf (base : Nat) (t : Token) : Option (List Nat) :=
  t.mapM fun c => (hexDigit c).filter (· < base)

/-- The number that digits stand for in a base, the most significant first. -/
def ofDigits (base : Nat) (ds : List Nat) : Nat := ds.foldl (fun n d => base * n + d) 0

/-- `int<N>`: a decimal or `0x`-prefixed hexadecimal literal (R62). -/
def parseInt : Token → Option Nat
  | [] => none
  | ['0', 'x'] => none
  | '0' :: 'x' :: ds => (digitsOf 16 ds).map (ofDigits 16)
  | ds => (digitsOf 10 ds).map (ofDigits 10)

/-- A statement that takes one integer. -/
def parseIntStmt (name : Token) (n : Nat) : Option AsmStmt :=
  if name = "TSET".toList then some (.tset n)
  else if name = "TTEST".toList then some (.ttest n)
  else if name = "STEST".toList then some (.stest n)
  else if name = "SBSET".toList then some (.sbset n)
  else if name = "SBRD".toList then some (.sbrd n)
  else if name = "SSET".toList then some (.sset n)
  else if name = "TBIT".toList then some (.tbit n)
  else none

/-- The command, pseudo-instruction or directive of a list of words (R62). -/
def parseStmt : List Token → Option AsmStmt
  | [name] =>
    if name = "NOP".toList then some .nop
    else if name = "TRD".toList then some .trd
    else if name = "RESET".toList then some .reset
    else none
  | [name, x] =>
    if name = "RED16".toList then (digitsOf 16 x).map .red16
    else if name = "RED32".toList then (digitsOf 16 x).map .red32
    else do parseIntStmt name (← parseInt x)
  | [name, x, [','], y] =>
    if name = "SBSET".toList then do some (.sbsetAt (← parseInt x) (← parseInt y))
    else if name = ".RAW".toList then do some (.raw (← parseInt x) (← parseInt y))
    else none
  | _ => none

/-- The `expect` of a line (R62). -/
def parseExpect : List Token → Option Expectation
  | [t] =>
    if t = "NOT_FOUND".toList then some .notFound
    else if t = "MAY_EXIST".toList then some .mayExist
    else if t = "ERR".toList then some .err
    else (parseInt t).map .value
  | _ => none

/-- A line of a script from its text (R62): the statement, then `=>` and what is expected, each
optional. -/
def parseLine (text : List Char) : Except AsmError ScriptLine :=
  let ts := tokens [] text
  let before := ts.takeWhile (· ≠ ['=', '>'])
  let after := ts.drop before.length
  let stmt : Option (Option AsmStmt) :=
    match before with
    | [] => some none
    | ws => (parseStmt ws).map some
  let expect : Option (Option Expectation) :=
    match after with
    | [] => some none
    | _ :: ws => (parseExpect ws).map some
  match stmt, expect with
  | some a, some e => .ok ⟨a, e⟩
  | _, _ => .error .notALine

/-- A script from its text, line by line. -/
def parseScript : List (List Char) → Except AsmError (List ScriptLine)
  | [] => .ok []
  | t :: ts => do
    let l ← parseLine t
    let ls ← parseScript ts
    .ok (l :: ls)

end Sys2Proof.Machine
end

