-- ==== Sys2Proof/Safety.lean ====
section
/-! DEFINITION. What claims about runs are stated in: the invariant of every step, and runs over the
events a host offers (20_memory.md rule R38, 70_reset_and_hazards.md R178, R179). -/

namespace Sys2Proof.Machine

/-- The invariant of the model: the small bitmap is in canonical form (20_memory.md R30), the response
port shows the last response given (30_encoding.md R50), and a response with `rsp_err` = 1 carries
`rsp_data` = 0 (R59). -/
structure Inv (s : State) : Prop where
  sbm_wf : s.sbm.wf = true
  rsp_is_last : ∀ r, s.rsp = some r → s.received.getLast? = some r
  err_has_no_data : ∀ r ∈ s.received, r.err = true → r.data = 0

/-- `n` steps, stopping at the first step that has no next state: `Host.Core.run` of this machine
(`runSteps_eq_core_run` in Laws/Step.lean). -/
def runSteps : Nat → State → Host.Outcome State Fault Refusal
  | 0, s => .next s
  | n + 1, s =>
    match step s with
    | .next t => runSteps n t
    | .fault r => .fault r
    | .refused r => .refused r

/-- A run over a list of host events: as many steps as there are events, from the state in which the
host offers exactly them. -/
def runEvents (es : List HostEvent) (s : State) : Host.Outcome State Fault Refusal :=
  runSteps es.length (s.offer es)

/-- A run over a list of commands, with no reset between them. -/
def runCommands (cs : List Command) (s : State) : Host.Outcome State Fault Refusal :=
  runEvents (cs.map .command) s

/-- The block's own state, which is all a command reads and writes (10_state.md R10, R22). -/
def State.bitmaps (s : State) : TinyBitmap × Memory := (s.tbm, s.sbm)

/-- A response answers a filter test positively (30_encoding.md R59, R60). -/
def Response.isMayExist (r : Response) : Prop := r = ⟨false, zext32 FilterResult.mayExist.code⟩

/-- A response answers a filter test negatively (30_encoding.md R59, R60). -/
def Response.isNotFound (r : Response) : Prop := r = ⟨false, zext32 FilterResult.notFound.code⟩

/-- A statement assembles to one command, which decodes to the instruction `i` and is its encoding, the
bits of `arg` outside its format zero (30_encoding.md R58, R62). -/
def AsmStmt.AssemblesTo (a : AsmStmt) (i : Instr) : Prop :=
  ∃ c : Command, a.assemble = .ok [.command c] ∧ decode c = .ok i ∧ c = encode i

/-- `A` is a subset of `B`, as sets of bits: `(A & B) == A` (00_scope.md section 6). -/
def BitSubset {n : Nat} (x y : BitVec n) : Prop := x &&& y = x

/-- `popcount(v)`: the number of 1 bits (00_scope.md section 6). -/
def popcount {n : Nat} (v : BitVec n) : Nat := (List.range n).countP v.getLsbD

end Sys2Proof.Machine
end

