-- ==== Sys2Proof/Certificates/Slice0/Obligations.lean ====
section
/-! DEFINITION. The statements for the provers, from the numbered rules of spec/. A rule the spec marks
as its own inference ([derived: ...]) is cited by its section, and the statement is a derived one. Steps
and runs are over the host's list of events and its list of observed responses, the model's own fields
(log entries 1 and 2); none of the statements rests on the values those have in `State.reset`. -/

open Sys2Proof Sys2Proof.Machine

/-! ### Reset, launch and the invariant -/

/-- R170, R24 (values of decision D5, event of D6): the reset event writes 0x0000 to `TBM` and 0x00 to
every byte of `SBM`, brings no response and leaves none pending, whatever state it finds, so that
`State.reset` has those values too; and it is the only event that clears a bit. -/
def Obligations.ResetClearsBothBitmapsAndAloneClearsBits : Prop :=
  (∀ (s : State) (es : List HostEvent), s.pending = .reset :: es →
    ∃ t, step s = .next t ∧ t.tbm = 0x0000#16 ∧ (∀ k : ByteOffset, memRead t.sbm k = 0x00#8) ∧
      t.rsp = none ∧ t.received = s.received ∧ t.pending = es) ∧
  State.reset.tbm = 0x0000#16 ∧ (∀ k : ByteOffset, memRead State.reset.sbm k = 0x00#8) ∧
  (∀ (e : HostEvent) (s t : State), takeEvent e s = .next t →
    ((∃ b, s.tbm.getLsbD b = true ∧ t.tbm.getLsbD b = false) ∨
      (∃ k b, memBit s.sbm k b = true ∧ memBit t.sbm k b = false)) →
    e = .reset ∨ ∃ c, e = .resetWithCommand c)

/-- R171: the reset values, and what the block answers directly after a reset: `TRD` and `SBRD` zero,
`TTEST` and `STEST` NOT_FOUND for every operand. "After a reset" is `State.reset` and every state a
reset event leaves. -/
def Obligations.AnswersDirectlyAfterReset : Prop :=
  ∀ s : State, (s = State.reset ∨ ∃ r, takeEvent .reset r = .next s) →
    s.tbm = 0x0000#16 ∧ (∀ k : ByteOffset, memRead s.sbm k = 0x00#8) ∧ rspValid s = false ∧
    (∃ t, exec .trd s = .next t ∧ t.rsp = some ⟨false, 0x0000#32⟩) ∧
    (∀ k, ∃ t, exec (.sbrd k) s = .next t ∧ t.rsp = some ⟨false, 0x00#32⟩) ∧
    (∀ h, ∃ t, exec (.ttest h) s = .next t ∧ t.rsp = some ⟨false, 1#32⟩) ∧
    (∀ v, ∃ t, exec (.stest v) s = .next t ∧ t.rsp = some ⟨false, 1#32⟩)

/-- 60_exceptions.md section 3 and 70_reset_and_hazards.md section 1 (decisions D6, D15): a command has
at most one cause of exception, a reserved opcode. Where a reset and a command coincide, reset wins: the
port is not ready, the step is the reset's, the command has no effect and no response. A command offered
outside reset, once a reset has occurred, finds the port ready and executes fully, with one response.
That the refused offer leaves the host's list with the reset event, so that the step is that of a reset
alone and the events after it remain (`t.pending = es`), is no rule of the spec but the model's own
DESIGN CHOICE, log entry 4. -/
def Obligations.ResetWinsOverOfferedCommand : Prop :=
  (∀ (c : Command) (e : DecodeError), decode c = .error e → e = .illegalOp c.op) ∧
  (∀ (c : Command) (es : List HostEvent) (s : State), s.pending = .resetWithCommand c :: es →
    cmdReady s = false ∧ step s = step (s.offer (.reset :: es)) ∧
    ∃ t, step s = .next t ∧ t.received = s.received ∧ t.pending = es ∧
      t.bitmaps = State.reset.bitmaps) ∧
  (∀ (c : Command) (es : List HostEvent) (s : State), s.pending = .command c :: es →
    s.hasReset = true → cmdReady s = true ∧
    ∃ t r, step s = .next t ∧ execCommand c (s.offer es) = .next t ∧ t.pending = es ∧
      t.received = s.received ++ [r])

/-- R172 (decision D6): before the first reset a command is given no meaning, whatever the bitmaps
hold, and a reset makes the block's state that of `State.reset`, after which commands are admitted. -/
def Obligations.NoCommandBeforeFirstReset : Prop :=
  (∀ (c : Command) (es : List HostEvent) (s : State), s.hasReset = false →
    s.pending = .command c :: es → step s = .refused .beforeFirstReset) ∧
  (∀ (es : List HostEvent) (s : State), s.pending = .reset :: es →
    ∃ t, step s = .next t ∧ t.hasReset = true ∧ t.bitmaps = State.reset.bitmaps)

/-- The invariant holds at reset, and of a block that power was just applied to, whatever its tiny
bitmap and whatever small bitmap in canonical form it holds. -/
def Obligations.ResetStateMeetsInv : Prop :=
  Inv State.reset ∧ ∀ (t : TinyBitmap) (m : Memory), m.wf = true → Inv (State.powerOn t m)

/-- The invariant is kept by every step from every state: the small bitmap stays in canonical form
within its 32 bytes, the port shows the last response, an error response carries no data. -/
def Obligations.EveryStepKeepsInv : Prop :=
  ∀ s t : State, Inv s → step s = .next t → Inv t

/-! ### Encoding and decoding -/

/-- Words written out from R51, R53 and R54 decode to the commands they stand for. -/
def Obligations.WrittenOutWordsDecode : Prop :=
  decode ⟨0b0000#4, 0x0#256⟩ = .ok .nop ∧
  decode ⟨0b0001#4, 0xCCA1#256⟩ = .ok (.tset 0xCCA1#16) ∧
  decode ⟨0b0010#4, 0x10000CCA1#256⟩ = .ok (.ttest 0xCCA1#16) ∧
  decode ⟨0b0011#4, 0x1234#256⟩ = .ok .trd ∧
  decode ⟨0b0100#4, 0xCCA1#256⟩ = .error (.illegalOp 0x4#4) ∧
  decode ⟨0b0101#4, 0x1FF#256⟩ = .ok (.sbset 0xFF#8) ∧
  decode ⟨0b0110#4, 0xCE0802A9#256⟩ = .ok (.stest 0xCE0802A9#32) ∧
  decode ⟨0b0111#4, 0x35#256⟩ = .ok (.sbrd 21#5) ∧
  decode ⟨0b1000#4, 0x100#256⟩ = .ok (.red16 0x100#256) ∧
  decode ⟨0b1001#4, 0x100#256⟩ = .ok (.red32 0x100#256) ∧
  decode ⟨0b1111#4, 0x0#256⟩ = .error (.illegalOp 0xF#4)

/-- Decoding and encoding agree on 260-bit command words: every well-formed instruction, with every
operand, decodes back from its word, and every word that decodes to an instruction is that
instruction's word but for the bits of `arg` its format does not name. -/
def Obligations.DecodeAndEncodeAgree : Prop :=
  (∀ i : Instr, i.wellFormed = true → decodeWord (encodeWord i) = .ok i) ∧
  ∀ (w : CmdWord) (i : Instr), decodeWord w = .ok i →
    encode i =
      ⟨(Command.ofWord w).op, (Command.ofWord w).arg &&& namedArgBits (Command.ofWord w).op⟩

/-- R58 (decision D9): two commands of one opcode that agree on the bits of `arg` its format names are
executed alike from every state, every `arg` is legal under a defined opcode, and the assembler emits
zeros in the other bits. The last clause is the rule's example. -/
def Obligations.UnnamedArgBitsAreIgnored : Prop :=
  (∀ (op : Opcode) (a b : Arg), a &&& namedArgBits op = b &&& namedArgBits op →
    ∀ s : State, execCommand ⟨op, a⟩ s = execCommand ⟨op, b⟩ s) ∧
  (∀ (op : Opcode) (a : Arg), Opcode.isReserved op = false → ∃ i, decode ⟨op, a⟩ = .ok i) ∧
  (∀ (l : AsmStmt) (es : List HostEvent), (∀ op arg, l ≠ .raw op arg) → l.assemble = .ok es →
    ∀ c : Command, .command c ∈ es → c.arg &&& ~~~ namedArgBits c.op = 0) ∧
  (∀ s : State, execCommand ⟨0x1#4, 0xFFFF0000CCA1#256⟩ s = execCommand ⟨0x1#4, 0xCCA1#256⟩ s)

/-- R61 (decision D15): the reserved opcodes are the seven listed; a command is illegal exactly when its
opcode is one of them, whatever its `arg`; it is then answered with the error response and changes no
bitmap; nine opcodes decode to commands. -/
def Obligations.ReservedOpcodesAreTheSevenListed : Prop :=
  (∀ c : Command, (∃ e, decode c = .error e) ↔
    c.op = 0x4#4 ∨ c.op = 0xA#4 ∨ c.op = 0xB#4 ∨ c.op = 0xC#4 ∨ c.op = 0xD#4 ∨ c.op = 0xE#4 ∨
      c.op = 0xF#4) ∧
  (∀ (c : Command) (s : State), Opcode.isReserved c.op = true →
    ∃ t, execCommand c s = .next t ∧ t.tbm = s.tbm ∧ t.sbm = s.sbm ∧ t.rsp = some ⟨true, 0#32⟩) ∧
  (∀ w : CmdWord, (∃ i, decodeWord w = .ok i) ∨ (∃ op, decodeWord w = .error (.illegalOp op))) ∧
  (∀ arg : Arg, ((List.range 16).countP fun n =>
    (decode ⟨BitVec.ofNat 4 n, arg⟩).toOption.isSome) = 9)

/-- The decoder follows the rows of the opcode map (R54): no opcode is selected by two rows, and a
command that a row selects decodes to an instruction with the row's mnemonic. -/
def Obligations.DecoderFollowsOpcodeMap : Prop :=
  opcodeRows.Pairwise (fun r q => ∀ op : Opcode, ¬ (r.selects op = true ∧ q.selects op = true)) ∧
  (∀ c : Command, ∀ r ∈ opcodeRows, r.selects c.op = true →
    ∃ i, decode c = .ok i ∧ i.mnemonic = r.mnemonic) ∧
  (∀ c : Command, rowOf c.op = none → ∃ op, decode c = .error (.illegalOp op))

/-- A step runs the decoded instruction: when the host's next event is a command that decodes to a
well-formed instruction, the step is that instruction's `exec`, with the event taken from the list. -/
def Obligations.StepRunsDecodedInstruction : Prop :=
  ∀ (c : Command) (es : List HostEvent) (i : Instr) (s : State), s.hasReset = true →
    s.pending = .command c :: es → decode c = .ok i → i.wellFormed = true →
    step s = exec i (s.offer es)

/-- R55: `probe4(h, i)` is `(h >> 4*i) & 0xF`, the slice `h[4i+3:4i]`; with the rule's example. -/
def Obligations.Probe4IsNibble : Prop :=
  (∀ (h : TinyIndex) (i : Fin 4), probe4 h i = h.extractLsb' (4 * i.val) 4 ∧
    (probe4 h i).toNat = h.toNat / 2 ^ (4 * i.val) % 16) ∧
  (probe4 0xCCA1#16 0 = 0x1#4 ∧ probe4 0xCCA1#16 1 = 0xA#4 ∧ probe4 0xCCA1#16 2 = 0xC#4 ∧
    probe4 0xCCA1#16 3 = 0xC#4)

/-- R56: `probe8(v, i)` is `(v >> 8*i) & 0xFF`, the slice `v[8i+7:8i]`, the shift logical; with the
rule's example. -/
def Obligations.Probe8IsByte : Prop :=
  (∀ (v : SmallIndex) (i : Fin 4), probe8 v i = v.extractLsb' (8 * i.val) 8 ∧
    (probe8 v i).toNat = v.toNat / 2 ^ (8 * i.val) % 256) ∧
  (probe8 0xCE0802A9#32 0 = 0xA9#8 ∧ probe8 0xCE0802A9#32 1 = 0x02#8 ∧
    probe8 0xCE0802A9#32 2 = 0x08#8 ∧ probe8 0xCE0802A9#32 3 = 0xCE#8)

/-- R31 and R32: a probe byte addresses byte `a[7:3]`, bit `a[2:0]`, the bit with global number
`8*off + bit = a`; the mask `0x1F` changes nothing; the 256 probe bytes address the 256 bits one to
one; and the bit at (`off`, `bit`) is bit `bit` of byte `off`, counted from the least significant. -/
def Obligations.ProbeByteAddressesOneBit : Prop :=
  (∀ a : ProbeByte, slot a = a.extractLsb' 3 5 ∧ bitpos a = a.extractLsb' 0 3 ∧
    (a >>> 3).toNat ≤ 31 ∧ (a >>> 3) &&& 0x1F#8 = a >>> 3 ∧
    8 * (slot a).toNat + (bitpos a).toNat = a.toNat) ∧
  (∀ (off : ByteOffset) (bit : BitPosition),
    8 * off.toNat + bit.toNat ≤ 255 ∧ ∃! a : ProbeByte, slot a = off ∧ bitpos a = bit) ∧
  (∀ (m : Memory) (off : ByteOffset) (bit : BitPosition),
    memBit m off bit = (memRead m off).getLsbD bit.toNat) ∧
  (∀ bit : BitPosition, bitMask bit = BitVec.ofNat 8 (2 ^ bit.toNat))

/-- The vector view of the small bitmap (20_memory.md section 1, marked derived there): bit `g` of the
256-bit vector is bit `g mod 8` of byte `g / 8`, and a probe byte addresses the bit of its own number. -/
def Obligations.SmallBitmapAsVector : Prop :=
  ∀ (m : Memory) (a : ProbeByte), (sbmVector m).getLsbD a.toNat = probeBit m a ∧
    (sbmVector m).getLsbD a.toNat =
      (memRead m (BitVec.ofNat 5 (a.toNat / 8))).getLsbD (a.toNat % 8)

/-! ### Hash reducers -/

/-- R81: the sixteen words of `reduce16`, its byte-by-byte form, its bit-by-bit form, and that the
order in which the words are folded does not matter. -/
def Obligations.Reduce16IsXorOfSixteenWords : Prop :=
  (∀ d : Digest, ∀ j < 16, word16 d j = (dbyte d (2 * j + 1)) ++ (dbyte d (2 * j))) ∧
  (∀ (d : Digest) (js : List Nat), js.Perm (List.range 16) →
    reduce16 d = js.foldl (fun x j => x ^^^ word16 d j) 0) ∧
  (∀ d : Digest,
    (reduce16 d).extractLsb' 0 8 = (List.range 16).foldl (fun x j => x ^^^ dbyte d (2 * j)) 0 ∧
    (reduce16 d).extractLsb' 8 8 = (List.range 16).foldl (fun x j => x ^^^ dbyte d (2 * j + 1)) 0) ∧
  (∀ d : Digest, ∀ n < 16,
    (reduce16 d).getLsbD n = (List.range 16).foldl (fun x j => x ^^ d.getLsbD (n + 16 * j)) false)

/-- R82 (byte order of decision D11, log entry 9): the four 64-bit words of `reduce32`, least
significant byte first, folded high half onto low half; the grouping does not matter; and the other
reading of the words gives the byte-reversed result, as in the rule's example VR1. -/
def Obligations.Reduce32FoldsFourWords : Prop :=
  (∀ d : Digest, ∀ k < 4, word64 .little d k =
      dbyte d (8 * k + 7) ++ dbyte d (8 * k + 6) ++ dbyte d (8 * k + 5) ++ dbyte d (8 * k + 4) ++
      dbyte d (8 * k + 3) ++ dbyte d (8 * k + 2) ++ dbyte d (8 * k + 1) ++ dbyte d (8 * k) ∧
    word64 .little d k = d.extractLsb' (64 * k) 64) ∧
  (∀ d : Digest,
    let x := word64 .little d 0 ^^^ word64 .little d 1 ^^^ word64 .little d 2 ^^^ word64 .little d 3
    reduce32 d = x.extractLsb' 32 32 ^^^ x.extractLsb' 0 32) ∧
  (∀ d : Digest, reduce32With .big d =
    (reduce32 d).extractLsb' 0 8 ++ (reduce32 d).extractLsb' 8 8 ++
      (reduce32 d).extractLsb' 16 8 ++ (reduce32 d).extractLsb' 24 8) ∧
  (reduce32 0x22AAB655E8CEE11026F05C556C830F46F0D98B4F84C6B187E18A8BCEDB8AB7F9#256 = 0xCE0802A9#32 ∧
    reduce32With .big 0x22AAB655E8CEE11026F05C556C830F46F0D98B4F84C6B187E18A8BCEDB8AB7F9#256 =
      0xA90208CE#32)

/-- R83: RED16 completes from every state with every digest; it answers `reduce16(d)` in bits 15 to 0
and zeros above, and changes nothing but the response. Its corner cases and its example. -/
def Obligations.Red16AnswersReduce16 : Prop :=
  (∀ arg : Arg, decode ⟨0x8#4, arg⟩ = .ok (.red16 arg)) ∧
  (∀ (d : Digest) (s : State),
    exec (.red16 d) s = .next { s with
      rsp := some ⟨false, (reduce16 d).setWidth 32⟩
      received := s.received ++ [⟨false, (reduce16 d).setWidth 32⟩] }) ∧
  (∀ d : Digest, (zext32 (reduce16 d)).extractLsb' 16 16 = 0#16) ∧
  reduce16 (0#256) = 0x0000#16 ∧ reduce16 (BitVec.allOnes 256) = 0x0000#16 ∧
  (∀ (c : Byte), ∀ i < 32, reduce16 (c.setWidth 256 <<< (8 * i)) =
    if i % 2 = 0 then c.setWidth 16 else c.setWidth 16 <<< 8) ∧
  reduce16 0x22AAB655E8CEE11026F05C556C830F46F0D98B4F84C6B187E18A8BCEDB8AB7F9#256 = 0xCCA1#16

/-- R84 (byte order of decision D11): RED32 completes from every state with every digest; it answers
`reduce32(d)` and changes nothing but the response. Its corner cases and its example; the digest with
byte `i` equal to `i` reduces to 0 under both commands. -/
def Obligations.Red32AnswersReduce32 : Prop :=
  (∀ arg : Arg, decode ⟨0x9#4, arg⟩ = .ok (.red32 arg)) ∧
  (∀ (d : Digest) (s : State),
    exec (.red32 d) s = .next { s with
      rsp := some ⟨false, reduce32 d⟩, received := s.received ++ [⟨false, reduce32 d⟩] }) ∧
  reduce32 (0#256) = 0x00000000#32 ∧ reduce32 (BitVec.allOnes 256) = 0x00000000#32 ∧
  (∀ (c : Byte), ∀ i < 32,
    reduce32 (c.setWidth 256 <<< (8 * i)) = c.setWidth 32 <<< (8 * (i % 4))) ∧
  (∀ d : Digest, (∀ i < 32, dbyte d i = BitVec.ofNat 8 i) → reduce32 d = 0 ∧ reduce16 d = 0) ∧
  reduce32 0x22AAB655E8CEE11026F05C556C830F46F0D98B4F84C6B187E18A8BCEDB8AB7F9#256 = 0xCE0802A9#32

/-- R85: two RED16 (or two RED32) commands with equal `arg` give equal responses, whatever commands or
resets lie between them, from every state in which commands are admitted. -/
def Obligations.EqualDigestsReduceAlike : Prop :=
  ∀ (op : Opcode) (arg : Arg) (es : List HostEvent) (s : State), op = 0x8#4 ∨ op = 0x9#4 →
    s.hasReset = true →
    ∃ t u v r, takeEvent (.command ⟨op, arg⟩) s = .next t ∧ runEvents es t = .next u ∧
      takeEvent (.command ⟨op, arg⟩) u = .next v ∧ t.rsp = some r ∧ v.rsp = some r

/-- 40_hash_reducers.md section 4, under decision D11 (marked derived there): `reduce32` is the XOR of
the eight little-endian 32-bit words of the digest, byte by byte and bit by bit. -/
def Obligations.Reduce32IsXorOfEightWords : Prop :=
  ∀ d : Digest,
    reduce32 d = (List.range 8).foldl (fun x j => x ^^^ d.extractLsb' (32 * j) 32) 0 ∧
    (∀ m < 4, (reduce32 d).extractLsb' (8 * m) 8 =
      (List.range 8).foldl (fun x j => x ^^^ dbyte d (m + 4 * j)) 0) ∧
    (∀ n < 32, (reduce32 d).getLsbD n =
      (List.range 8).foldl (fun x j => x ^^ d.getLsbD (n + 32 * j)) false)

/-- 40_hash_reducers.md section 4, under decision D11 (marked derived there): folding the 32-bit
reduction once more gives the 16-bit one; with the big-endian reading the two bytes come out swapped,
so that the law fails there. -/
def Obligations.FoldingReduce32GivesReduce16 : Prop :=
  (∀ d : Digest,
    reduce16 d = (reduce32 d).extractLsb' 16 16 ^^^ (reduce32 d).extractLsb' 0 16 ∧
    (reduce32With .big d).extractLsb' 16 16 ^^^ (reduce32With .big d).extractLsb' 0 16 =
      (reduce16 d).extractLsb' 0 8 ++ (reduce16 d).extractLsb' 8 8) ∧
  ∃ d : Digest, reduce16 d ≠
    (reduce32With .big d).extractLsb' 16 16 ^^^ (reduce32With .big d).extractLsb' 0 16

/-- 40_hash_reducers.md section 4 (marked derived there): both reducers are linear over XOR, and
flipping bit `g` of the digest flips exactly bit `g mod 16`, or `g mod 32`, of the result. -/
def Obligations.ReducersAreLinear : Prop :=
  (∀ d e : Digest, reduce16 (d ^^^ e) = reduce16 d ^^^ reduce16 e ∧
    reduce32 (d ^^^ e) = reduce32 d ^^^ reduce32 e) ∧
  (∀ d : Digest, ∀ g < 256,
    reduce16 (d ^^^ (1#256 <<< g)) = reduce16 d ^^^ (1#16 <<< (g % 16)) ∧
    reduce32 (d ^^^ (1#256 <<< g)) = reduce32 d ^^^ (1#32 <<< (g % 32)))

/-- 40_hash_reducers.md section 4 (marked derived there): two digests that differ in exactly two bits
whose positions are congruent modulo 16 are different and reduce to the same 16-bit value. -/
def Obligations.Reduce16IsNotInjective : Prop :=
  ∀ d : Digest, ∀ g < 256, ∀ k < 256, g ≠ k → g % 16 = k % 16 →
    d ^^^ (1#256 <<< g) ^^^ (1#256 <<< k) ≠ d ∧
    reduce16 (d ^^^ (1#256 <<< g) ^^^ (1#256 <<< k)) = reduce16 d

/-! ### Tiny filter -/

/-- R100: `tiny_mask(h)` has the bit of each probe of `h` and no other; it has one to four bits, one
exactly when the four nibbles are equal and four exactly when they all differ; it depends on the set
of nibble values alone; with the rule's examples. -/
def Obligations.TinyMaskHasTheProbeBits : Prop :=
  (∀ (h : TinyIndex) (b : Nat), (tinyMask h).getLsbD b = true ↔ ∃ i, (probe4 h i).toNat = b) ∧
  (∀ h : TinyIndex, 1 ≤ popcount (tinyMask h) ∧ popcount (tinyMask h) ≤ 4 ∧
    (popcount (tinyMask h) = 1 ↔ ∀ i j, probe4 h i = probe4 h j) ∧
    (popcount (tinyMask h) = 4 ↔ ∀ i j, probe4 h i = probe4 h j → i = j)) ∧
  (∀ h k : TinyIndex, (∀ p, (∃ i, probe4 h i = p) ↔ (∃ i, probe4 k i = p)) →
    tinyMask h = tinyMask k) ∧
  (∀ b : BitVec 4, tinyMask (b ++ b ++ b ++ b) = 1#16 <<< b.toNat) ∧
  tinyMask 0x3210#16 = 0x000F#16 ∧ tinyMask 0x0123#16 = 0x000F#16

/-- R101 and R102: `tiny_update` ORs the four probe bits into the bitmap and keeps every other bit;
`tiny_test` is NOT_FOUND exactly when some probe bit is clear, MAY_EXIST otherwise, and never another
result. -/
def Obligations.TinyUpdateAndTestByProbe : Prop :=
  (∀ (bm : TinyBitmap) (h : TinyIndex) (b : Nat), (tinyUpdate bm h).getLsbD b = true ↔
    bm.getLsbD b = true ∨ ∃ i, (probe4 h i).toNat = b) ∧
  (∀ (bm : TinyBitmap) (h : TinyIndex),
    (tinyTest bm h = .notFound ↔ ∃ i, bm.getLsbD (probe4 h i).toNat = false) ∧
    (tinyTest bm h = .mayExist ↔ ∀ i, bm.getLsbD (probe4 h i).toNat = true) ∧
    tinyTest bm h ≠ .unknown ∧ tinyTest bm h ≠ .exitMember)

/-- R103 (response of decision D17): TSET completes from every state with every index: exactly the
probe bits are added to `TBM`, the response is the new bitmap, nothing else changes. Its corner cases
(a) to (e), its encoding and its example. -/
def Obligations.TsetRecordsTheProbes : Prop :=
  (∀ arg : Arg, decode ⟨0x1#4, arg⟩ = .ok (.tset (arg.extractLsb' 0 16))) ∧
  (∀ (h : TinyIndex) (s : State), ∃ new : TinyBitmap,
    exec (.tset h) s = .next { s with
      tbm := new
      rsp := some ⟨false, new.setWidth 32⟩
      received := s.received ++ [⟨false, new.setWidth 32⟩] } ∧
    (∀ b, new.getLsbD b = true ↔ s.tbm.getLsbD b = true ∨ ∃ i, (probe4 h i).toNat = b) ∧
    (tinyMask h &&& s.tbm = tinyMask h → new = s.tbm) ∧
    (s.tbm = 0xFFFF#16 → new = 0xFFFF#16)) ∧
  (∀ (b : BitVec 4) (s : State), ∃ t, exec (.tset (b ++ b ++ b ++ b)) s = .next t ∧
    t.tbm = s.tbm ||| (1#16 <<< b.toNat)) ∧
  (∀ h : TinyIndex, ∃ s t, exec (.tset h) s = .next t ∧ t.tbm ≠ s.tbm) ∧
  (∀ s : State, s.tbm = 0x0000#16 → ∃ t, exec (.tset 0xCCA1#16) s = .next t ∧ t.tbm = 0x1402#16)

/-- R104: TTEST completes from every state with every index: it answers 1 (NOT_FOUND) if a probe bit
is clear in `TBM` and 2 (MAY_EXIST) otherwise, and changes nothing but the response. Its corner cases,
its encoding and its examples. -/
def Obligations.TtestAnswersByProbe : Prop :=
  (∀ arg : Arg, decode ⟨0x2#4, arg⟩ = .ok (.ttest (arg.extractLsb' 0 16))) ∧
  (∀ (h : TinyIndex) (s : State), ∃ data : RspData,
    exec (.ttest h) s = .next { s with
      rsp := some ⟨false, data⟩, received := s.received ++ [⟨false, data⟩] } ∧
    (data = 2#32 ↔ ∀ i, s.tbm.getLsbD (probe4 h i).toNat = true) ∧
    (data = 1#32 ↔ ∃ i, s.tbm.getLsbD (probe4 h i).toNat = false) ∧
    (s.tbm = 0x0000#16 → data = 1#32) ∧ (s.tbm = 0xFFFF#16 → data = 2#32) ∧
    (data = 1#32 ∨ data = 2#32)) ∧
  (∀ (b : BitVec 4) (s : State), ∃ t, exec (.ttest (b ++ b ++ b ++ b)) s = .next t ∧
    t.rsp = some ⟨false, if s.tbm.getLsbD b.toNat then 2#32 else 1#32⟩) ∧
  (∀ s : State, s.tbm = 0x140F#16 →
    (∃ t, exec (.ttest 0x0004#16) s = .next t ∧ t.rsp = some ⟨false, 1#32⟩) ∧
    (∃ t, exec (.ttest 0xC1A0#16) s = .next t ∧ t.rsp = some ⟨false, 2#32⟩))

/-- R105 (decision D16): TRD completes from every state: it answers `TBM` and changes nothing but the
response; directly after reset it answers 0; its encoding, `arg` ignored, and its example. -/
def Obligations.TrdAnswersTbm : Prop :=
  (∀ arg : Arg, decode ⟨0x3#4, arg⟩ = .ok .trd) ∧
  (∀ s : State, exec .trd s = .next { s with
    rsp := some ⟨false, s.tbm.setWidth 32⟩
    received := s.received ++ [⟨false, s.tbm.setWidth 32⟩] }) ∧
  (∀ s : State, ∃ t, runEvents [.reset, .command (encode .trd)] s = .next t ∧
    t.rsp = some ⟨false, 0x0000#32⟩) ∧
  (∀ s : State, ∃ t, runEvents [.reset, .command (encode (.tset 0xCCA1#16)),
      .command (encode (.tset 0x230C#16)), .command (encode .trd)] s = .next t ∧
    t.rsp = some ⟨false, 0x140F#32⟩)

/-- R106: `tiny_update` is idempotent and commutative, and after a reset and any TSETs `TBM` is the OR
of the masks of the set of their indices, whatever their order and repetition. -/
def Obligations.TbmIsOrOfRecordedMasks : Prop :=
  (∀ (bm : TinyBitmap) (h k : TinyIndex),
    tinyUpdate (tinyUpdate bm h) k = tinyUpdate (tinyUpdate bm k) h ∧
    tinyUpdate (tinyUpdate bm h) h = tinyUpdate bm h) ∧
  (∀ (hs : List TinyIndex) (s : State), ∃ t,
    runEvents (.reset :: hs.map fun h => .command (encode (.tset h))) s = .next t ∧
    t.tbm = hs.foldr (fun h bm => tinyMask h ||| bm) 0) ∧
  (∀ (hs ks : List TinyIndex) (s t u : State), (∀ h, h ∈ hs ↔ h ∈ ks) →
    runEvents (.reset :: hs.map fun h => .command (encode (.tset h))) s = .next t →
    runEvents (.reset :: ks.map fun h => .command (encode (.tset h))) s = .next u →
    t.tbm = u.tbm)

/-- R107: no false negative: `tiny_test(tiny_update(B, h), h)` is MAY_EXIST for every `B` and `h`; and
once `TSET h` has executed, in any state in which commands are admitted, every later `TTEST h` answers
MAY_EXIST whatever commands come between; after a reset it no longer does. -/
def Obligations.NoFalseNegativeInTinyFilter : Prop :=
  (∀ (bm : TinyBitmap) (h : TinyIndex), tinyTest (tinyUpdate bm h) h = .mayExist) ∧
  (∀ (h : TinyIndex) (cs : List Command) (s : State), s.hasReset = true → ∃ t r,
    runCommands (encode (.tset h) :: cs ++ [encode (.ttest h)]) s = .next t ∧
    t.rsp = some r ∧ r.isMayExist) ∧
  (∀ (h : TinyIndex) (s : State), s.hasReset = true → ∃ t r,
    runEvents [.command (encode (.tset h)), .reset, .command (encode (.ttest h))] s = .next t ∧
    t.rsp = some r ∧ r.isNotFound)

/-- R108: the empty tiny filter answers NOT_FOUND for every index, including 0x0000, as does any
bitmap with a probe bit clear; and so does the block after a reset and before any TSET, whatever other
commands come between. -/
def Obligations.EmptyTinyFilterFindsNothing : Prop :=
  (∀ h : TinyIndex, tinyTest 0x0000#16 h = .notFound) ∧
  (∀ (bm : TinyBitmap) (h : TinyIndex) (i : Fin 4),
    bm.getLsbD (probe4 h i).toNat = false → tinyTest bm h = .notFound) ∧
  (∀ h : TinyIndex, ∀ i : Fin 4, 1#16 <<< probe4 h i ≠ 0#16) ∧
  (∀ (h : TinyIndex) (cs : List Command) (s : State), (∀ c ∈ cs, c.op ≠ 0x1#4) → ∃ t r,
    runEvents (.reset :: (cs.map .command ++ [.command (encode (.ttest h))])) s = .next t ∧
    t.rsp = some r ∧ r.isNotFound)

/-- 41_tiny_filter.md section 3 (marked derived there): `tiny_test` is MAY_EXIST exactly when the mask
is a subset of the bitmap; after a reset and TSETs of some indices, `TTEST h` answers MAY_EXIST exactly
when every nibble value of `h` occurs in one of them. -/
def Obligations.TinyTestIsExact : Prop :=
  (∀ (bm : TinyBitmap) (h : TinyIndex), tinyTest bm h = .mayExist ↔ BitSubset (tinyMask h) bm) ∧
  (∀ (hs : List TinyIndex) (h : TinyIndex) (s : State), ∃ t r,
    runEvents (.reset :: (hs.map (fun k => .command (encode (.tset k))) ++
      [.command (encode (.ttest h))])) s = .next t ∧ t.rsp = some r ∧
    (r.isMayExist ↔ ∀ i, ∃ k ∈ hs, ∃ j, probe4 k j = probe4 h i) ∧
    (r.isNotFound ↔ ∃ i, ∀ k ∈ hs, ∀ j, probe4 k j ≠ probe4 h i))

/-- 41_tiny_filter.md section 3 (marked derived there): `tiny_update` never clears a bit, a larger
bitmap never loses a MAY_EXIST, and at 0xFFFF every test is MAY_EXIST and every update changes
nothing. -/
def Obligations.TinyFilterIsMonotoneAndSaturates : Prop :=
  (∀ (bm : TinyBitmap) (h : TinyIndex), BitSubset bm (tinyUpdate bm h)) ∧
  (∀ (bm bm' : TinyBitmap) (h : TinyIndex), BitSubset bm bm' → tinyTest bm h = .mayExist →
    tinyTest bm' h = .mayExist) ∧
  (∀ h : TinyIndex, tinyTest 0xFFFF#16 h = .mayExist ∧ tinyUpdate 0xFFFF#16 h = 0xFFFF#16)

/-- 10_state.md section 2 (marked derived there): every value of `TBM` is reached from the reset value,
by one TSET of the index with four nibbles `b` for each bit `b` of the target. -/
def Obligations.EveryTinyBitmapIsReached : Prop :=
  ∀ (target : TinyBitmap) (s : State), ∃ t,
    runEvents (.reset :: ((List.range 16).filter target.getLsbD).map fun b =>
      .command (encode (.tset (allNibbles (BitVec.ofNat 4 b))))) s = .next t ∧ t.tbm = target

/-- R11: after a reset and any commands, bit `b` of `TBM` is set exactly when some TSET since that
reset had a probe equal to `b`. -/
def Obligations.TbmBitMeansProbeRecorded : Prop :=
  ∀ (cs : List Command) (s : State), ∃ t,
    runEvents (.reset :: cs.map .command) s = .next t ∧
    ∀ b < 16, t.tbm.getLsbD b = true ↔
      ∃ c ∈ cs, ∃ h, decode c = .ok (.tset h) ∧ ∃ i, (probe4 h i).toNat = b

/-- R13: no command clears a bit of `TBM`; it writes `TBM` only if it is TSET, which writes
`TBM | tiny_mask(idx)`; of all events only a reset lowers `TBM`, to 0x0000. -/
def Obligations.TbmOnlyGrowsUnderCommands : Prop :=
  (∀ (c : Command) (s t : State), execCommand c s = .next t →
    BitSubset s.tbm t.tbm ∧ (c.op ≠ 0x1#4 → t.tbm = s.tbm) ∧
    (c.op = 0x1#4 → t.tbm = s.tbm ||| tinyMask (argIdx16 c.arg))) ∧
  (∀ (e : HostEvent) (s t : State), takeEvent e s = .next t →
    (∃ c, e = .command c ∧ BitSubset s.tbm t.tbm) ∨ t.tbm = 0x0000#16)

/-! ### Small filter -/

/-- R120: `small_test` is MAY_EXIST exactly when all four addressed bits are 1 and NOT_FOUND exactly
when one of them is 0, never another result; an addressed bit is bit `a & 7` of byte `(a >> 3) & 0x1F`,
which is bit `a` of the vector view; the order of the probe bytes does not matter. -/
def Obligations.SmallTestExaminesFourBits : Prop :=
  (∀ (m : Memory) (v : SmallIndex),
    (smallTest m v = .mayExist ↔ ∀ i, (memRead m (BitVec.ofNat 5 ((probe8 v i).toNat / 8))).getLsbD
      ((probe8 v i).toNat % 8) = true) ∧
    (smallTest m v = .notFound ↔ ∃ i, (sbmVector m).getLsbD (probe8 v i).toNat = false) ∧
    smallTest m v ≠ .unknown ∧ smallTest m v ≠ .exitMember) ∧
  (∀ (m : Memory) (v w : SmallIndex) (f : Fin 4 → Fin 4), Function.Bijective f →
    (∀ i, probe8 w i = probe8 v (f i)) → smallTest m w = smallTest m v)

/-- R121: `small_setbit` replaces byte `off` by `S[off] | (1 << bit)` and leaves the other 31 bytes;
the bit set is then found at the same byte and bit position, so that `small_test` finds it. -/
def Obligations.SmallSetbitOrsOneBit : Prop :=
  ∀ (m : Memory) (off : ByteOffset) (bit : BitPosition),
    (∀ k, memRead (smallSetbit m off bit) k =
      if k = off then memRead m off ||| (0x01#8 <<< bit.toNat) else memRead m k) ∧
    (∀ k b, memBit (smallSetbit m off bit) k b = true ↔
      memBit m k b = true ∨ (k = off ∧ b = bit))

/-- R122: STEST completes from every state with every index: it answers 2 (MAY_EXIST) exactly when all
four addressed bits are set, 1 (NOT_FOUND) otherwise, and changes nothing but the response. Its corner
cases, its encoding and its example. -/
def Obligations.StestAnswersByProbeByte : Prop :=
  (∀ arg : Arg, decode ⟨0x6#4, arg⟩ = .ok (.stest (arg.extractLsb' 0 32))) ∧
  (∀ (v : SmallIndex) (s : State), ∃ data : RspData,
    exec (.stest v) s = .next { s with
      rsp := some ⟨false, data⟩, received := s.received ++ [⟨false, data⟩] } ∧
    (data = 2#32 ↔ ∀ i, (memRead s.sbm (slot (probe8 v i))).getLsbD (bitpos (probe8 v i)).toNat) ∧
    (data = 1#32 ∨ data = 2#32) ∧
    ((∀ k, memRead s.sbm k = 0x00#8) → data = 1#32) ∧
    ((∀ k, memRead s.sbm k = 0xFF#8) → data = 2#32)) ∧
  (∀ (a : ProbeByte) (s : State), ∃ t, exec (.stest (a ++ a ++ a ++ a)) s = .next t ∧
    t.rsp = some ⟨false, if probeBit s.sbm a then 2#32 else 1#32⟩) ∧
  (∀ s : State, ∃ t u, exec (.stest 0xA90208CE#32) s = .next t ∧
    exec (.stest 0xCE0802A9#32) s = .next u ∧ t.rsp = u.rsp) ∧
  (∀ s : State, ∃ t, exec (.stest 0x00000000#32) s = .next t ∧
    t.rsp = some ⟨false, if (memRead s.sbm 0#5).getLsbD 0 then 2#32 else 1#32⟩) ∧
  (slot (probe8 0xCE0802A9#32 3) = 25#5 ∧ bitpos (probe8 0xCE0802A9#32 3) = 6#3) ∧
  (∀ s : State, s.sbm = [(0, 0x04#8), (1, 0x01#8), (21, 0x02#8), (25, 0x40#8)] →
    (∃ t, exec (.stest 0xCE0802A9#32) s = .next t ∧ t.rsp = some ⟨false, 2#32⟩) ∧
    (∃ t, exec (.stest 0xCE0802A8#32) s = .next t ∧ t.rsp = some ⟨false, 1#32⟩))

/-- R123 (decisions D4, D17): SBSET completes from every state with every probe byte: one bit of the
byte at `arg[7:3]` is set, every other byte and bit reads as before, `TBM` is unchanged, and the
response is the new byte. Its corner cases, its encoding and its example. -/
def Obligations.SbsetSetsOneBit : Prop :=
  (∀ arg : Arg, decode ⟨0x5#4, arg⟩ = .ok (.sbset (arg.extractLsb' 0 8))) ∧
  (∀ (a : ProbeByte) (s : State), ∃ (m : Memory) (new : Byte),
    exec (.sbset a) s = .next { s with
      sbm := m
      rsp := some ⟨false, new.setWidth 32⟩
      received := s.received ++ [⟨false, new.setWidth 32⟩] } ∧
    new = memRead s.sbm (a.extractLsb' 3 5) ||| (0x01#8 <<< (a.extractLsb' 0 3).toNat) ∧
    (∀ off : ByteOffset,
      (off = a.extractLsb' 3 5 → memRead m off = new) ∧
      (off ≠ a.extractLsb' 3 5 → memRead m off = memRead s.sbm off)) ∧
    (∀ b, new.getLsbD b = true ↔
      (memRead s.sbm (a.extractLsb' 3 5)).getLsbD b = true ∨ b = (a.extractLsb' 0 3).toNat) ∧
    (probeBit s.sbm a = true → new = memRead s.sbm (a.extractLsb' 3 5))) ∧
  (slot 0x00#8 = 0#5 ∧ bitpos 0x00#8 = 0#3 ∧ slot 0xFF#8 = 31#5 ∧ bitpos 0xFF#8 = 7#3) ∧
  (∀ s : State, ∃ t u,
    runEvents [.reset, .command (encode (.sbset 0xA9#8))] s = .next t ∧
    t.rsp = some ⟨false, 0x02#32⟩ ∧ memRead t.sbm 21#5 = 0x02#8 ∧
    runEvents [.command (encode (.sbset (probeOf 21#5 0#3)))] t = .next u ∧
    u.rsp = some ⟨false, 0x03#32⟩) ∧
  (∀ (c : Command) (s t : State) (k : ByteOffset) (b : BitPosition),
    execCommand c s = .next t → memBit s.sbm k b = true → memBit t.sbm k b = true)

/-- R124 (decision D16): SBRD completes from every state with every byte offset: it answers the byte
and changes nothing but the response; after a reset it answers 0; its operand is a byte offset; its
encoding and its example. -/
def Obligations.SbrdAnswersTheByte : Prop :=
  (∀ arg : Arg, decode ⟨0x7#4, arg⟩ = .ok (.sbrd (arg.extractLsb' 0 5))) ∧
  (∀ (off : ByteOffset) (s : State), exec (.sbrd off) s = .next { s with
    rsp := some ⟨false, (memRead s.sbm off).setWidth 32⟩
    received := s.received ++ [⟨false, (memRead s.sbm off).setWidth 32⟩] }) ∧
  (∀ (off : ByteOffset) (s : State), ∃ t,
    runEvents [.reset, .command (encode (.sbrd off))] s = .next t ∧
    t.rsp = some ⟨false, 0x00#32⟩) ∧
  (∀ s : State, ∃ t u,
    runEvents [.reset, .command (encode (.sbset 0xA9#8)), .command (encode (.sbrd 21#5))] s =
      .next t ∧ t.rsp = some ⟨false, 0x02#32⟩ ∧
    runEvents [.reset, .command (encode (.sbset 0xA9#8)), .command (encode (.sbrd 20#5))] s =
      .next u ∧ u.rsp = some ⟨false, 0x00#32⟩)

/-- 42_small_filter.md section 4 (marked derived there): on a small bitmap in canonical form
`small_setbit` is idempotent and commutative, as equal lists, and on every small bitmap it is
monotone. -/
def Obligations.SmallSetbitLaws : Prop :=
  (∀ (m : Memory) (o : ByteOffset) (b : BitPosition), m.wf = true →
    smallSetbit (smallSetbit m o b) o b = smallSetbit m o b) ∧
  (∀ (m : Memory) (o o' : ByteOffset) (b b' : BitPosition), m.wf = true →
    smallSetbit (smallSetbit m o b) o' b' = smallSetbit (smallSetbit m o' b') o b) ∧
  (∀ (m : Memory) (o k : ByteOffset) (b c : BitPosition),
    memBit m k c = true → memBit (smallSetbit m o b) k c = true)

/-- 42_small_filter.md section 4 (marked derived there): after a reset and any commands, `STEST v`
answers MAY_EXIST exactly when each probe byte of `v` has been set by some SBSET since that reset, and
NOT_FOUND otherwise: no false negative, and nothing found in an empty filter. -/
def Obligations.SmallTestIsExact : Prop :=
  ∀ (cs : List Command) (v : SmallIndex) (s : State), ∃ t r,
    runEvents (.reset :: (cs.map .command ++ [.command (encode (.stest v))])) s = .next t ∧
    t.rsp = some r ∧
    (r.isMayExist ↔ ∀ i, ∃ c ∈ cs, decode c = .ok (.sbset (probe8 v i))) ∧
    (r.isNotFound ↔ ∃ i, ∀ c ∈ cs, decode c ≠ .ok (.sbset (probe8 v i)))

/-- R15: after a reset and any commands, the bit at byte offset `off` and bit position `bit`, whose
global number is `8*off + bit`, is set exactly when some SBSET since that reset addressed it; and the
small bitmap then lists bytes at addresses 0 to 31 only. -/
def Obligations.SbmBitMeansProbeByteSet : Prop :=
  ∀ (cs : List Command) (s : State), ∃ t,
    runEvents (.reset :: cs.map .command) s = .next t ∧
    (∀ (off : ByteOffset) (bit : BitPosition), (memRead t.sbm off).getLsbD bit.toNat = true ↔
      ∃ c ∈ cs, ∃ a, decode c = .ok (.sbset a) ∧ a.toNat = 8 * off.toNat + bit.toNat) ∧
    (∀ cell ∈ t.sbm, cell.1 < 32)

/-- 10_state.md section 3 (the growth marked derived there): of all commands only SBSET writes `SBM`, one
bit of one byte; no command clears a bit of any byte; of all events only a reset does, writing 0x00 to
all 32 bytes. -/
def Obligations.SbmOnlyGrowsUnderCommands : Prop :=
  (∀ (c : Command) (s t : State), execCommand c s = .next t →
    (∀ k, BitSubset (memRead s.sbm k) (memRead t.sbm k)) ∧ (c.op ≠ 0x5#4 → t.sbm = s.sbm) ∧
    (c.op = 0x5#4 → ∀ k b, memBit t.sbm k b = true ↔ memBit s.sbm k b = true ∨
      (k = slot (argProbe c.arg) ∧ b = bitpos (argProbe c.arg)))) ∧
  (∀ (e : HostEvent) (s t : State), takeEvent e s = .next t →
    (∃ c, e = .command c ∧ ∀ k, BitSubset (memRead s.sbm k) (memRead t.sbm k)) ∨
    ∀ k, memRead t.sbm k = 0x00#8)

/-- 42_small_filter.md section 4: the two filters are unrelated. What a command makes of either bitmap
depends on that bitmap and the command alone; TTEST, TSET and TRD answer alike whatever `SBM` holds,
STEST, SBSET and SBRD whatever `TBM` holds. -/
def Obligations.FiltersAreUnrelated : Prop :=
  ∀ (c : Command) (s s' t t' : State), execCommand c s = .next t → execCommand c s' = .next t' →
    (s.tbm = s'.tbm → t.tbm = t'.tbm) ∧ (s.sbm = s'.sbm → t.sbm = t'.sbm) ∧
    (s.tbm = s'.tbm → Opcode.unitField c.op = 0#2 → t.rsp = t'.rsp) ∧
    (s.sbm = s'.sbm → Opcode.unitField c.op = 1#2 → t.rsp = t'.rsp)

/-! ### Control, exceptions, ordering -/

/-- R140 (decision D16): NOP completes from every state: it answers 0 and changes nothing but the
response; every `arg` under opcode 0 is a NOP. -/
def Obligations.NopAnswersZero : Prop :=
  (∀ arg : Arg, decode ⟨0x0#4, arg⟩ = .ok .nop) ∧
  ∀ s : State, exec .nop s = .next { s with
    rsp := some ⟨false, 0x00000000#32⟩, received := s.received ++ [⟨false, 0x00000000#32⟩] }

/-- R150: no defined command can fail: with every operand and from every state it completes with
`rsp_err` = 0 and exactly one response. -/
def Obligations.DefinedCommandsNeverFail : Prop :=
  ∀ (c : Command) (s : State), c.wellFormed = true →
    ∃ t data, execCommand c s = .next t ∧ t.rsp = some ⟨false, data⟩ ∧
      t.received = s.received ++ [⟨false, data⟩]

/-- R151 and R156 (decision D15): a command with a reserved opcode raises IllegalOp, whatever its
`arg`: one response with `rsp_err` = 1 and `rsp_data` = 0, `TBM` and `SBM` unchanged, nothing of the
command recorded. The block is then as before: the next command has the effect and the response it
would have had, a second reserved opcode included. -/
def Obligations.IllegalOpLeavesBlockIntact : Prop :=
  (∀ (op : Opcode) (arg arg' : Arg) (s : State), Opcode.isReserved op = true →
    execCommand ⟨op, arg⟩ s = .next { s with
      rsp := some ⟨true, 0x00000000#32⟩
      received := s.received ++ [⟨true, 0x00000000#32⟩] } ∧
    execCommand ⟨op, arg'⟩ s = execCommand ⟨op, arg⟩ s) ∧
  (∀ (c d : Command) (s t : State), Opcode.isReserved c.op = true → execCommand c s = .next t →
    ∃ u v, execCommand d t = .next u ∧ execCommand d s = .next v ∧
      u.bitmaps = v.bitmaps ∧ u.rsp = v.rsp)

/-- The frame of every command (43_control.md section 2, marked derived there): NOP, TTEST, TRD, STEST,
SBRD, RED16, RED32 change neither bitmap; TSET changes `TBM` in its mask's bits alone and no byte of
`SBM`; SBSET stores to the byte at `slot(a)` alone, every other byte of `SBM` reads as before, and
`TBM` is unchanged; none changes the host's events or the launch premise, and each appends one
response. -/
def Obligations.InstructionFrames : Prop :=
  ∀ (i : Instr) (s t : State), exec i s = .next t →
    (t.pending = s.pending ∧ t.hasReset = s.hasReset ∧
      ∃ r, t.rsp = some r ∧ t.received = s.received ++ [r]) ∧
    (match i with
    | .nop | .ttest _ | .trd | .stest _ | .sbrd _ | .red16 _ | .red32 _ =>
      t.tbm = s.tbm ∧ ∀ k, memRead t.sbm k = memRead s.sbm k
    | .tset h =>
      (∀ b, (tinyMask h).getLsbD b = false → t.tbm.getLsbD b = s.tbm.getLsbD b) ∧
        ∀ k, memRead t.sbm k = memRead s.sbm k
    | .sbset a => t.tbm = s.tbm ∧ ∀ k, k ≠ slot a → memRead t.sbm k = memRead s.sbm k)

/-- The execution of an accepted command is a function of `(TBM, SBM, op, arg)` alone (43_control.md
section 2 and 10_state.md section 4, marked derived there): from two states with the same bitmaps it
leaves the same bitmaps and gives the same response, whatever was answered before. -/
def Obligations.CommandsDependOnBitmapsAlone : Prop :=
  ∀ (c : Command) (s s' : State), s.bitmaps = s'.bitmaps →
    ∃ t t' r, execCommand c s = .next t ∧ execCommand c s' = .next t' ∧
      t.bitmaps = t'.bitmaps ∧ t.rsp = some r ∧ t'.rsp = some r

/-- R178 (decision D7): after a reset every offered command is executed, whatever its operand and the
state, and a run of n commands has exactly n responses, after those already observed. -/
def Obligations.RunOfCommandsAnswersEach : Prop :=
  ∀ (cs : List Command) (s : State), s.hasReset = true → ∃ t rs,
    runCommands cs s = .next t ∧ t.received = s.received ++ rs ∧ rs.length = cs.length

/-- R38 (decision D22): commands take effect one at a time in acceptance order: a run of events is its
first part and then its rest from the state the first part leaves, so that each response reflects the
state left by all earlier commands and none later. In particular a TTEST right after a TSET observes
the bits that TSET set, and an STEST right after an SBSET the bit it set. -/
def Obligations.RunsTakeEffectInOrder : Prop :=
  (∀ (es fs : List HostEvent) (s t : State), runEvents es s = .next t →
    runEvents (es ++ fs) s = runEvents fs t ∧ ∃ rs, t.received = s.received ++ rs) ∧
  (∀ (h : TinyIndex) (s : State), s.hasReset = true → ∃ t r,
    runCommands [encode (.tset h), encode (.ttest h)] s = .next t ∧ t.rsp = some r ∧ r.isMayExist) ∧
  (∀ (a : ProbeByte) (s : State), s.hasReset = true → ∃ t r,
    runCommands [encode (.sbset a), encode (.stest (a ++ a ++ a ++ a))] s = .next t ∧
      t.rsp = some r ∧ r.isMayExist)

/-- R60 (codes of decision D13): the four codes, in the source's listing order, and that `rsp_data` of
TTEST and STEST is always 1 or 2, never 0 or 3. -/
def Obligations.TestsAnswerOneOrTwo : Prop :=
  (FilterResult.unknown.code = 0b00#2 ∧ FilterResult.notFound.code = 0b01#2 ∧
    FilterResult.mayExist.code = 0b10#2 ∧ FilterResult.exitMember.code = 0b11#2) ∧
  ∀ (c : Command) (s : State), c.op = 0x2#4 ∨ c.op = 0x6#4 → ∃ t data,
    execCommand c s = .next t ∧ t.rsp = some ⟨false, data⟩ ∧ (data = 1#32 ∨ data = 2#32) ∧
    data ≠ 0#32 ∧ data ≠ 3#32

/-- Which commands commute (20_memory.md section 4, marked derived there): RED16, RED32 and NOP with
every command, two reading commands, and a tiny-filter with a small-filter command, in state and in
both responses; two TSETs in the final `TBM` and two SBSETs in the final `SBM` (in canonical form), but
two TSETs not in their responses; and a TSET does not commute with a later TTEST. -/
def Obligations.CommutingCommands : Prop :=
  (∀ (c d : Instr) (s : State),
    ((c = .nop ∨ (∃ x, c = .red16 x) ∨ (∃ x, c = .red32 x)) ∨
     ((c = .trd ∨ (∃ x, c = .ttest x) ∨ (∃ x, c = .stest x) ∨ (∃ x, c = .sbrd x)) ∧
      (d = .trd ∨ (∃ x, d = .ttest x) ∨ (∃ x, d = .stest x) ∨ (∃ x, d = .sbrd x))) ∨
     ((c = .trd ∨ (∃ x, c = .tset x) ∨ (∃ x, c = .ttest x)) ∧
      ((∃ x, d = .sbset x) ∨ (∃ x, d = .stest x) ∨ (∃ x, d = .sbrd x)))) →
    ∃ t u t' u', exec c s = .next t ∧ exec d t = .next u ∧ exec d s = .next t' ∧
      exec c t' = .next u' ∧ u.bitmaps = u'.bitmaps ∧ t.rsp = u'.rsp ∧ u.rsp = t'.rsp) ∧
  (∀ (h k : TinyIndex) (s : State), s.hasReset = true → ∃ t u,
    runCommands [encode (.tset h), encode (.tset k)] s = .next t ∧
    runCommands [encode (.tset k), encode (.tset h)] s = .next u ∧ t.bitmaps = u.bitmaps) ∧
  (∀ (a b : ProbeByte) (s : State), s.hasReset = true → s.sbm.wf = true → ∃ t u,
    runCommands [encode (.sbset a), encode (.sbset b)] s = .next t ∧
    runCommands [encode (.sbset b), encode (.sbset a)] s = .next u ∧ t.bitmaps = u.bitmaps) ∧
  (∃ (h k : TinyIndex) (t u : State),
    runCommands [encode (.tset h), encode (.tset k)] State.reset = .next t ∧
    runCommands [encode (.tset k), encode (.tset h)] State.reset = .next u ∧
    t.received ≠ u.received.reverse) ∧
  (∃ (h : TinyIndex) (t u : State),
    runCommands [encode (.tset h), encode (.ttest h)] State.reset = .next t ∧
    runCommands [encode (.ttest h), encode (.tset h)] State.reset = .next u ∧
    t.received ≠ u.received.reverse)

/-! ### The host's assembler -/

/-- R63 (decisions D24, D25): `SSET v` is the four SBSETs of the probe bytes of `v`, in that order,
after which `STEST v` answers MAY_EXIST; in any other order they leave the same bitmaps. `TBIT b` is
one TSET and sets bit `b` alone. An expectation may follow `TBIT` and applies to its one response, and
is refused after `SSET`. -/
def Obligations.PseudoInstructionsExpand : Prop :=
  (∀ v : SmallIndex, (AsmStmt.sset v.toNat).assemble = .ok
    [.command (encode (.sbset (probe8 v 0))), .command (encode (.sbset (probe8 v 1))),
     .command (encode (.sbset (probe8 v 2))), .command (encode (.sbset (probe8 v 3)))]) ∧
  (∀ (v : SmallIndex) (s : State), s.hasReset = true → ∃ t r,
    runCommands (ssetCommands v ++ [encode (.stest v)]) s = .next t ∧ t.rsp = some r ∧
    r.isMayExist) ∧
  (∀ (v : SmallIndex) (cs : List Command) (s : State), s.hasReset = true → s.sbm.wf = true →
    cs.Perm (ssetCommands v) → ∃ t u, runCommands cs s = .next t ∧
      runCommands (ssetCommands v) s = .next u ∧ t.bitmaps = u.bitmaps) ∧
  (∀ b : BitVec 4, (AsmStmt.tbit b.toNat).assemble =
      .ok [.command (encode (.tset (b ++ b ++ b ++ b)))] ∧
    ∀ s : State, s.hasReset = true → ∃ t,
      runEvents (AsmStmt.tbit b.toNat).events s = .next t ∧
      t.tbm = s.tbm ||| (1#16 <<< b.toNat)) ∧
  (∀ (b : BitVec 4) (n : RspData),
    ScriptLine.assemble ⟨some (.tbit b.toNat), some (.value n.toNat)⟩ =
      .ok ([.command (encode (.tset (b ++ b ++ b ++ b)))], some ⟨false, n⟩)) ∧
  (∀ (v : SmallIndex) (n : RspData),
    ScriptLine.assemble ⟨some (.sset v.toNat), some (.value n.toNat)⟩ =
      .error .expectationNotAllowed)

/-- The assembler's statements (30_encoding.md section 7, syntax of decision D24): one with a fitting
operand assembles to one command, which decodes to the instruction of that operand and is its encoding:
NOP, TRD, TSET, TTEST, STEST, SBSET, SBRD, RED16, RED32; `SBSET off, bit` is the SBSET of the probe byte
`8*off + bit`, a digest literal the digest of its bytes in reading order. `RESET` is one reset event and
no command, `.RAW` the command word as written; every command of any other statement, a
pseudo-instruction's too, decodes to an instruction and is its encoding. An operand that does not fit is
refused, not truncated, and so is a digest literal that is not 64 hexadecimal digits. -/
def Obligations.AssembledStatementsDecode : Prop :=
  AsmStmt.nop.AssemblesTo .nop ∧ AsmStmt.trd.AssemblesTo .trd ∧
  AsmStmt.reset.assemble = .ok [.reset] ∧
  (∀ n : TinyIndex, (AsmStmt.tset n.toNat).AssemblesTo (.tset n) ∧
    (AsmStmt.ttest n.toNat).AssemblesTo (.ttest n)) ∧
  (∀ n : SmallIndex, (AsmStmt.stest n.toNat).AssemblesTo (.stest n)) ∧
  (∀ n : ProbeByte, (AsmStmt.sbset n.toNat).AssemblesTo (.sbset n)) ∧
  (∀ (off : ByteOffset) (bit : BitPosition), (AsmStmt.sbsetAt off.toNat bit.toNat).AssemblesTo
    (.sbset (BitVec.ofNat 8 (8 * off.toNat + bit.toNat)))) ∧
  (∀ n : ByteOffset, (AsmStmt.sbrd n.toNat).AssemblesTo (.sbrd n)) ∧
  (∀ ds : List Nat, ds.length = 64 → (∀ x ∈ ds, x < 16) → ∃ d : Digest,
    (AsmStmt.red16 ds).AssemblesTo (.red16 d) ∧ (AsmStmt.red32 ds).AssemblesTo (.red32 d) ∧
    ∀ i < 32, (dbyte d i).toNat = 16 * ds.getD (2 * i) 0 + ds.getD (2 * i + 1) 0) ∧
  (∀ (op : Opcode) (arg : Arg),
    (AsmStmt.raw op.toNat arg.toNat).assemble = .ok [.command ⟨op, arg⟩]) ∧
  (∀ (a : AsmStmt) (es : List HostEvent), (∀ op arg, a ≠ .raw op arg) → a.assemble = .ok es →
    ∀ c : Command, .command c ∈ es → ∃ i, decode c = .ok i ∧ c = encode i) ∧
  (∀ n : Nat,
    (2 ^ 16 ≤ n → (AsmStmt.tset n).assemble = .error .operandDoesNotFit ∧
      (AsmStmt.ttest n).assemble = .error .operandDoesNotFit) ∧
    (2 ^ 32 ≤ n → (AsmStmt.stest n).assemble = .error .operandDoesNotFit ∧
      (AsmStmt.sset n).assemble = .error .operandDoesNotFit) ∧
    (2 ^ 8 ≤ n → (AsmStmt.sbset n).assemble = .error .operandDoesNotFit) ∧
    (2 ^ 5 ≤ n → (AsmStmt.sbrd n).assemble = .error .operandDoesNotFit) ∧
    (2 ^ 4 ≤ n → (AsmStmt.tbit n).assemble = .error .operandDoesNotFit)) ∧
  (∀ n k : Nat,
    (2 ^ 5 ≤ n ∨ 2 ^ 3 ≤ k → (AsmStmt.sbsetAt n k).assemble = .error .operandDoesNotFit) ∧
    (2 ^ 4 ≤ n ∨ 2 ^ 256 ≤ k → (AsmStmt.raw n k).assemble = .error .operandDoesNotFit)) ∧
  (∀ ds : List Nat, (ds.length ≠ 64 ∨ ∃ x ∈ ds, 16 ≤ x) →
    (AsmStmt.red16 ds).assemble = .error .notADigest ∧
    (AsmStmt.red32 ds).assemble = .error .notADigest)

/-! ### What one step keeps of both filters -/

/-- No false negative, as an invariant of one step (41_tiny_filter.md section 3, 42_small_filter.md
section 4): a step on an offered command leaves every index that the tiny filter finds found, its mask a
subset of `TBM`, and a TSET's own index too; and it leaves every index that the small filter finds
found, and finds one whose only missing probe byte the SBSET sets. A step on a reset event, the only
other step, leaves none found in either filter. -/
def Obligations.EveryCommandStepKeepsFoundIndices : Prop :=
  ∀ s t : State, step s = .next t →
    (∃ c es, s.pending = .command c :: es ∧
      (∀ h, BitSubset (tinyMask h) s.tbm ∨ decode c = .ok (.tset h) →
        BitSubset (tinyMask h) t.tbm ∧ tinyTest t.tbm h = .mayExist) ∧
      (∀ v, (∀ i, memBit s.sbm (slot (probe8 v i)) (bitpos (probe8 v i)) = true ∨
          decode c = .ok (.sbset (probe8 v i))) →
        smallTest t.sbm v = .mayExist)) ∨
    (∃ es, (s.pending = .reset :: es ∨ ∃ c, s.pending = .resetWithCommand c :: es) ∧
      (∀ h, tinyTest t.tbm h = .notFound) ∧ ∀ v, smallTest t.sbm v = .notFound)
end

