-- ==== Sys2Proof/Laws/Memory.lean ====
section
/-! SUPPORT. The laws of the small bitmap: what a read after a write gives, and that every operation
keeps the canonical form. -/

namespace Sys2Proof.Machine

/-- Reading another address than the one written gives what was there. -/
theorem Memory.lookup_put_other (m : Memory) {a k : Nat} (v : Byte) (h : k ≠ a) :
    (m.put a v).lookup k = m.lookup k := by
  induction m with
  | nil => unfold Memory.put; split <;> simp [Memory.lookup, Ne.symm h]
  | cons c m ih =>
    obtain ⟨j, b⟩ := c
    unfold Memory.put
    by_cases hj : j = k
    · subst hj
      split_ifs <;> simp_all [Memory.lookup, Ne.symm h]
    · split_ifs <;> simp_all [Memory.lookup, Ne.symm h]

/-- Reading back a byte other than the unlisted one, in any memory. -/
theorem Memory.lookup_put_self (m : Memory) (a : Nat) {v : Byte} (hv : v ≠ Memory.unlistedByte) :
    (m.put a v).lookup a = v := by
  induction m with
  | nil => simp [Memory.put, Memory.lookup, hv]
  | cons c m ih =>
    obtain ⟨j, b⟩ := c
    unfold Memory.put
    split_ifs with h₁ h₂ <;> simp_all [Memory.lookup, Ne.symm]

/-- A canonical memory from `low` on lists nothing below `low`. -/
theorem Memory.lookup_below {m : Memory} {low a : Nat} (h : m.wfFrom low = true) (ha : a < low) :
    m.lookup a = Memory.unlistedByte := by
  induction m generalizing low with
  | nil => rfl
  | cons c m ih =>
    obtain ⟨k, b⟩ := c
    simp only [Memory.wfFrom, Bool.and_eq_true, decide_eq_true_eq] at h
    have hk : k ≠ a := by omega
    simp [Memory.lookup, hk, ih h.2 (by omega)]

/-- Canonical from `low` on is canonical from any lower bound on. -/
theorem Memory.wfFrom_mono {m : Memory} {low low' : Nat} (h : m.wfFrom low = true)
    (hle : low' ≤ low) : m.wfFrom low' = true := by
  cases m with
  | nil => rfl
  | cons c m =>
    simp only [Memory.wfFrom, Bool.and_eq_true, decide_eq_true_eq] at h ⊢
    exact ⟨⟨⟨by omega, h.1.1.2⟩, h.1.2⟩, h.2⟩

/-- Writing a byte at an existing address keeps the canonical form. -/
theorem Memory.wfFrom_put {m : Memory} {low a : Nat} (v : Byte) (h : m.wfFrom low = true)
    (hlow : low ≤ a) (ha : a < 32) : (m.put a v).wfFrom low = true := by
  induction m generalizing low with
  | nil =>
    unfold Memory.put
    split
    · rfl
    · simp_all [Memory.wfFrom]
  | cons c m ih =>
    obtain ⟨k, b⟩ := c
    have h0 := h
    simp only [Memory.wfFrom, Bool.and_eq_true, decide_eq_true_eq] at h
    obtain ⟨⟨⟨h1, h2⟩, h3⟩, h4⟩ := h
    unfold Memory.put
    split_ifs with h₁ h₂ h₃ h₄'
    · exact h0
    · simp only [Memory.wfFrom, Bool.and_eq_true, decide_eq_true_eq, bne_iff_ne, ne_eq] at *
      exact ⟨⟨⟨hlow, ha⟩, h₂⟩, ⟨⟨⟨by omega, h2⟩, h3⟩, h4⟩⟩
    · exact Memory.wfFrom_mono h4 (by omega)
    · simp only [Memory.wfFrom, Bool.and_eq_true, decide_eq_true_eq, bne_iff_ne, ne_eq] at *
      subst h₃
      exact ⟨⟨⟨hlow, ha⟩, h₄'⟩, h4⟩
    · simp only [Memory.wfFrom, Bool.and_eq_true, decide_eq_true_eq]
      exact ⟨⟨⟨h1, h2⟩, h3⟩, ih h4 (by omega)⟩

/-- Two canonical memories that read alike at every address are the same list. -/
theorem Memory.ext_of_wfFrom {m m' : Memory} {low : Nat} (h : m.wfFrom low = true)
    (h' : m'.wfFrom low = true) (heq : ∀ a, m.lookup a = m'.lookup a) : m = m' := by
  induction m generalizing m' low with
  | nil =>
    cases m' with
    | nil => rfl
    | cons c m' =>
      obtain ⟨k, b⟩ := c
      simp only [Memory.wfFrom, Bool.and_eq_true, bne_iff_ne] at h'
      exact absurd (heq k).symm (by simpa [Memory.lookup] using h'.1.2)
  | cons c m ih =>
    obtain ⟨k, b⟩ := c
    simp only [Memory.wfFrom, Bool.and_eq_true, decide_eq_true_eq, bne_iff_ne] at h
    cases m' with
    | nil => exact absurd (heq k) (by simpa [Memory.lookup] using h.1.2)
    | cons c' m' =>
      obtain ⟨k', b'⟩ := c'
      simp only [Memory.wfFrom, Bool.and_eq_true, decide_eq_true_eq, bne_iff_ne] at h'
      have hk : k = k' := by
        rcases Nat.lt_trichotomy k k' with hlt | hE | hgt
        · refine absurd (heq k) ?_
          have hb := Memory.lookup_below h'.2 (a := k) (by omega)
          have hne : k' ≠ k := by omega
          simpa [Memory.lookup, hne, hb] using h.1.2
        · exact hE
        · refine absurd (heq k').symm ?_
          have hb := Memory.lookup_below h.2 (a := k') (by omega)
          have hne : k ≠ k' := by omega
          simpa [Memory.lookup, hne, hb] using h'.1.2
      subst hk
      have hbb : b = b' := by simpa [Memory.lookup] using heq k
      subst hbb
      have htail : m = m' := by
        refine ih h.2 h'.2 fun a => ?_
        by_cases hak : k = a
        · subst hak
          rw [Memory.lookup_below h.2 (by omega), Memory.lookup_below h'.2 (by omega)]
        · simpa [Memory.lookup, hak] using heq a
      rw [htail]

/-- `MemWrite` keeps the canonical form. -/
theorem memWrite_wf {m : Memory} (addr : ByteOffset) (v : Byte) (h : m.wf = true) :
    (memWrite m addr v).wf = true :=
  Memory.wfFrom_put v h (Nat.zero_le _) addr.isLt

/-- A read of another byte than the one written gives what was there. -/
theorem memRead_memWrite_other (m : Memory) {addr k : ByteOffset} (v : Byte) (h : k ≠ addr) :
    memRead (memWrite m addr v) k = memRead m k :=
  Memory.lookup_put_other m v fun he => h (BitVec.eq_of_toNat_eq he)

/-- A read of the byte written gives it back, in any memory, unless it is the unlisted byte. -/
theorem memRead_memWrite_self (m : Memory) (addr : ByteOffset) {v : Byte}
    (hv : v ≠ Memory.unlistedByte) : memRead (memWrite m addr v) addr = v :=
  Memory.lookup_put_self m addr.toNat hv

/-- The empty small bitmap reads 0x00 everywhere. -/
@[simp] theorem memRead_nil (k : ByteOffset) : memRead [] k = 0x00 := rfl

/-- The mask of a bit position is never 0 (43_control.md R143). -/
theorem bitMask_ne_zero (bit : BitPosition) : bitMask bit ≠ 0 := by
  revert bit; decide

/-- The byte that setting a bit leaves is never 0, so that it reads back from any memory. -/
theorem smallSetByte_ne_unlisted (m : Memory) (off : ByteOffset) (bit : BitPosition) :
    smallSetByte m off bit ≠ Memory.unlistedByte := by
  intro h
  apply bitMask_ne_zero bit
  exact (BitVec.or_eq_zero_iff.mp h).2

end Sys2Proof.Machine
end

