-- ==== Sys2Proof/Laws/State.lean ====
section
/-! SUPPORT. What each update of State leaves in each field, so that no later proof unfolds a record
update. -/

namespace Sys2Proof.Machine

@[simp] theorem State.writeTbm_tbm (s : State) (v : TinyBitmap) : (s.writeTbm v).tbm = v := rfl
@[simp] theorem State.writeTbm_sbm (s : State) (v : TinyBitmap) : (s.writeTbm v).sbm = s.sbm := rfl
@[simp] theorem State.writeTbm_rsp (s : State) (v : TinyBitmap) : (s.writeTbm v).rsp = s.rsp := rfl
@[simp] theorem State.writeTbm_received (s : State) (v : TinyBitmap) : (s.writeTbm v).received = s.received := rfl
@[simp] theorem State.writeTbm_pending (s : State) (v : TinyBitmap) : (s.writeTbm v).pending = s.pending := rfl
@[simp] theorem State.writeTbm_hasReset (s : State) (v : TinyBitmap) : (s.writeTbm v).hasReset = s.hasReset := rfl

@[simp] theorem State.writeSbm_tbm (s : State) (m : Memory) : (s.writeSbm m).tbm = s.tbm := rfl
@[simp] theorem State.writeSbm_sbm (s : State) (m : Memory) : (s.writeSbm m).sbm = m := rfl
@[simp] theorem State.writeSbm_rsp (s : State) (m : Memory) : (s.writeSbm m).rsp = s.rsp := rfl
@[simp] theorem State.writeSbm_received (s : State) (m : Memory) : (s.writeSbm m).received = s.received := rfl
@[simp] theorem State.writeSbm_pending (s : State) (m : Memory) : (s.writeSbm m).pending = s.pending := rfl
@[simp] theorem State.writeSbm_hasReset (s : State) (m : Memory) : (s.writeSbm m).hasReset = s.hasReset := rfl

@[simp] theorem State.offer_tbm (s : State) (es : List HostEvent) : (s.offer es).tbm = s.tbm := rfl
@[simp] theorem State.offer_sbm (s : State) (es : List HostEvent) : (s.offer es).sbm = s.sbm := rfl
@[simp] theorem State.offer_rsp (s : State) (es : List HostEvent) : (s.offer es).rsp = s.rsp := rfl
@[simp] theorem State.offer_received (s : State) (es : List HostEvent) : (s.offer es).received = s.received := rfl
@[simp] theorem State.offer_pending (s : State) (es : List HostEvent) : (s.offer es).pending = es := rfl
@[simp] theorem State.offer_hasReset (s : State) (es : List HostEvent) : (s.offer es).hasReset = s.hasReset := rfl

@[simp] theorem State.give_tbm (s : State) (r : Response) : (s.give r).tbm = s.tbm := rfl
@[simp] theorem State.give_sbm (s : State) (r : Response) : (s.give r).sbm = s.sbm := rfl
@[simp] theorem State.give_rsp (s : State) (r : Response) : (s.give r).rsp = some r := rfl
@[simp] theorem State.give_received (s : State) (r : Response) : (s.give r).received = s.received ++ [r] := rfl
@[simp] theorem State.give_pending (s : State) (r : Response) : (s.give r).pending = s.pending := rfl
@[simp] theorem State.give_hasReset (s : State) (r : Response) : (s.give r).hasReset = s.hasReset := rfl

@[simp] theorem respond_tbm {n : Nat} (v : BitVec n) (s : State) : (respond v s).tbm = s.tbm := rfl
@[simp] theorem respond_sbm {n : Nat} (v : BitVec n) (s : State) : (respond v s).sbm = s.sbm := rfl
@[simp] theorem respond_rsp {n : Nat} (v : BitVec n) (s : State) : (respond v s).rsp = some ⟨false, zext32 v⟩ := rfl
@[simp] theorem respond_received {n : Nat} (v : BitVec n) (s : State) : (respond v s).received = s.received ++ [⟨false, zext32 v⟩] := rfl
@[simp] theorem respond_pending {n : Nat} (v : BitVec n) (s : State) : (respond v s).pending = s.pending := rfl
@[simp] theorem respond_hasReset {n : Nat} (v : BitVec n) (s : State) : (respond v s).hasReset = s.hasReset := rfl

@[simp] theorem raiseIllegalOp_tbm (s : State) : (raiseIllegalOp s).tbm = s.tbm := rfl
@[simp] theorem raiseIllegalOp_sbm (s : State) : (raiseIllegalOp s).sbm = s.sbm := rfl
@[simp] theorem raiseIllegalOp_rsp (s : State) : (raiseIllegalOp s).rsp = some ⟨true, 0⟩ := rfl
@[simp] theorem raiseIllegalOp_received (s : State) : (raiseIllegalOp s).received = s.received ++ [⟨true, 0⟩] := rfl
@[simp] theorem raiseIllegalOp_pending (s : State) : (raiseIllegalOp s).pending = s.pending := rfl
@[simp] theorem raiseIllegalOp_hasReset (s : State) : (raiseIllegalOp s).hasReset = s.hasReset := rfl

@[simp] theorem resetBlock_tbm (s : State) : (resetBlock s).tbm = 0x0000 := rfl
@[simp] theorem resetBlock_sbm (s : State) : (resetBlock s).sbm = [] := rfl
@[simp] theorem resetBlock_rsp (s : State) : (resetBlock s).rsp = none := rfl
@[simp] theorem resetBlock_received (s : State) : (resetBlock s).received = s.received := rfl
@[simp] theorem resetBlock_pending (s : State) : (resetBlock s).pending = s.pending := rfl
@[simp] theorem resetBlock_hasReset (s : State) : (resetBlock s).hasReset = true := rfl

@[simp] theorem State.reset_tbm : State.reset.tbm = 0x0000 := rfl
@[simp] theorem State.reset_sbm : State.reset.sbm = [] := rfl
@[simp] theorem State.reset_rsp : State.reset.rsp = none := rfl
@[simp] theorem State.reset_received : State.reset.received = [] := rfl
@[simp] theorem State.reset_pending : State.reset.pending = [] := rfl
@[simp] theorem State.reset_hasReset : State.reset.hasReset = true := rfl

@[simp] theorem State.powerOn_tbm (t : TinyBitmap) (m : Memory) : (State.powerOn t m).tbm = t := rfl
@[simp] theorem State.powerOn_sbm (t : TinyBitmap) (m : Memory) : (State.powerOn t m).sbm = m := rfl
@[simp] theorem State.powerOn_rsp (t : TinyBitmap) (m : Memory) : (State.powerOn t m).rsp = none := rfl
@[simp] theorem State.powerOn_received (t : TinyBitmap) (m : Memory) : (State.powerOn t m).received = [] := rfl
@[simp] theorem State.powerOn_pending (t : TinyBitmap) (m : Memory) : (State.powerOn t m).pending = [] := rfl
@[simp] theorem State.powerOn_hasReset (t : TinyBitmap) (m : Memory) : (State.powerOn t m).hasReset = false := rfl

end Sys2Proof.Machine
end

