-- ==== Sys2Proof/Laws/Ops.lean ====
section
/-! SUPPORT. One lemma per shared operation, said once: the bit of a memory, setting a bit, and what
every executed instruction and command leaves alone on the host's side. -/

namespace Sys2Proof.Machine

/-- `(S[off] >> bit) & 1` is bit `bit` of byte `off` (R31). -/
theorem memBit_eq_getLsbD (m : Memory) (off : ByteOffset) (bit : BitPosition) :
    memBit m off bit = (memRead m off).getLsbD bit.toNat := by
  unfold memBit
  generalize memRead m off = b
  revert b bit
  decide

/-- Setting a bit keeps the canonical form. -/
theorem smallSetbit_wf {m : Memory} (off : ByteOffset) (bit : BitPosition) (h : m.wf = true) :
    (smallSetbit m off bit).wf = true := memWrite_wf off _ h

/-- The response of an executed instruction: no error, and 32 bits of data. -/
def instrResponse : Instr → State → Response
  | .nop, _ => ⟨false, 0⟩
  | .tset h, s => ⟨false, zext32 (tinyUpdate s.tbm h)⟩
  | .ttest h, s => ⟨false, zext32 (tinyTest s.tbm h).code⟩
  | .trd, s => ⟨false, zext32 s.tbm⟩
  | .sbset a, s => ⟨false, zext32 (smallSetByte s.sbm (slot a) (bitpos a))⟩
  | .stest v, s => ⟨false, zext32 (smallTest s.sbm v).code⟩
  | .sbrd off, s => ⟨false, zext32 (memRead s.sbm off)⟩
  | .red16 d, _ => ⟨false, zext32 (reduce16 d)⟩
  | .red32 d, _ => ⟨false, zext32 (reduce32 d)⟩

/-- The tiny bitmap after an executed instruction. -/
def instrTbm : Instr → State → TinyBitmap
  | .tset h, s => tinyUpdate s.tbm h
  | .nop, s | .ttest _, s | .trd, s | .sbset _, s | .stest _, s | .sbrd _, s
  | .red16 _, s | .red32 _, s => s.tbm

/-- The small bitmap after an executed instruction. -/
def instrSbm : Instr → State → Memory
  | .sbset a, s => smallSetbit s.sbm (slot a) (bitpos a)
  | .nop, s | .tset _, s | .ttest _, s | .trd, s | .stest _, s | .sbrd _, s
  | .red16 _, s | .red32 _, s => s.sbm

/-- Everything an executed instruction does, said once. -/
theorem exec_eq (i : Instr) (s : State) :
    exec i s = .next (State.give { s with tbm := instrTbm i s, sbm := instrSbm i s }
      (instrResponse i s)) := by
  cases i <;> rfl

/-- An executed instruction leaves the host's events and the launch premise alone. -/
theorem exec_keeps_host {i : Instr} {s t : State} (h : exec i s = .next t) :
    t.pending = s.pending ∧ t.hasReset = s.hasReset := by
  rw [exec_eq] at h
  cases h
  exact ⟨rfl, rfl⟩

/-- An executed command leaves the host's events and the launch premise alone. -/
theorem execCommand_keeps_host {c : Command} {s t : State} (h : execCommand c s = .next t) :
    t.pending = s.pending ∧ t.hasReset = s.hasReset := by
  unfold execCommand at h
  split at h
  · exact exec_keeps_host h
  · cases h
    exact ⟨rfl, rfl⟩

end Sys2Proof.Machine
end

