-- ==== Sys2Proof/Laws/PerInstr.lean ====
section
/-! SUPPORT. Statements for all instructions, one lemma per constructor. -/

namespace Sys2Proof.Laws.EncodesItsRow

/-- An instruction is encoded with the opcode of its row in the opcode map (R54), and its encoding
sets no bit of `arg` outside the row's format (R53, R58). -/
def Statement (i : Instr) : Prop :=
  (∃ r, rowOf (encode i).op = some r ∧ r.mnemonic = i.mnemonic) ∧
    (encode i).arg &&& ~~~ namedArgBits (encode i).op = 0

/-- An operand of `n` bits, widened to `arg`, has no bit outside the low `n` bits. -/
theorem setWidth_within {n : Nat} (v : BitVec n) :
    v.setWidth 256 &&& ~~~ BitVec.ofNat 256 (2 ^ n - 1) = 0 := by
  apply BitVec.eq_of_getLsbD_eq
  intro k hk
  simp only [BitVec.getLsbD_and, BitVec.getLsbD_setWidth, BitVec.getLsbD_not, BitVec.getLsbD_ofNat,
    Nat.testBit_two_pow_sub_one]
  by_cases hkn : k < n
  · simp [hk, hkn]
  · simp [BitVec.getLsbD_of_ge v k (by omega)]

/-- The opcode map, opcode by opcode: the row of an opcode of the table is the table's. -/
theorem rowOf_pattern : ∀ r ∈ opcodeRows, rowOf r.pattern = some r := by decide

/-- The bits that the format of a table row names. -/
theorem namedArgBits_pattern {r : OpcodeRow} (h : r ∈ opcodeRows) :
    namedArgBits r.pattern = BitVec.ofNat 256 (2 ^ r.format.argBits - 1) := by
  unfold namedArgBits
  rw [rowOf_pattern r h]

/-- The statement for an instruction whose row is known and whose operand fills its format. -/
theorem of_row {i : Instr} {r : OpcodeRow} (hr : r ∈ opcodeRows) (hop : (encode i).op = r.pattern)
    (hm : r.mnemonic = i.mnemonic) (v : BitVec r.format.argBits)
    (ha : (encode i).arg = v.setWidth 256) : Statement i := by
  refine ⟨⟨r, hop ▸ rowOf_pattern r hr, hm⟩, ?_⟩
  rw [hop, namedArgBits_pattern hr, ha]
  exact setWidth_within v

theorem nop : Statement .nop :=
  of_row (r := ⟨"NOP", .N, 0x0, 0xF⟩) (by decide) rfl rfl 0#0 rfl

theorem tset (idx16 : TinyIndex) : Statement (.tset idx16) :=
  of_row (r := ⟨"TSET", .I16, 0x1, 0xF⟩) (by decide) rfl rfl idx16 rfl

theorem ttest (idx16 : TinyIndex) : Statement (.ttest idx16) :=
  of_row (r := ⟨"TTEST", .I16, 0x2, 0xF⟩) (by decide) rfl rfl idx16 rfl

theorem trd : Statement .trd :=
  of_row (r := ⟨"TRD", .N, 0x3, 0xF⟩) (by decide) rfl rfl 0#0 rfl

theorem sbset (a : ProbeByte) : Statement (.sbset a) :=
  of_row (r := ⟨"SBSET", .BA, 0x5, 0xF⟩) (by decide) rfl rfl a rfl

theorem stest (idx32 : SmallIndex) : Statement (.stest idx32) :=
  of_row (r := ⟨"STEST", .I32, 0x6, 0xF⟩) (by decide) rfl rfl idx32 rfl

theorem sbrd (off : ByteOffset) : Statement (.sbrd off) :=
  of_row (r := ⟨"SBRD", .A5, 0x7, 0xF⟩) (by decide) rfl rfl off rfl

theorem red16 (digest : Digest) : Statement (.red16 digest) :=
  of_row (r := ⟨"RED16", .DIG, 0x8, 0xF⟩) (by decide) rfl rfl digest (BitVec.setWidth_eq digest).symm

theorem red32 (digest : Digest) : Statement (.red32 digest) :=
  of_row (r := ⟨"RED32", .DIG, 0x9, 0xF⟩) (by decide) rfl rfl digest (BitVec.setWidth_eq digest).symm

end Sys2Proof.Laws.EncodesItsRow
end

