-- ==== Sys2Proof/Laws/Step.lean ====
section
/-! SUPPORT. What a step can do, said once: the cases of an executed command, of an event and of a
step, and how a run over events unfolds. -/

namespace Sys2Proof.Machine

/-- Everything an executed command can do: it is the meaning of the instruction it decodes to, or the
exception of a command that decodes to none. -/
theorem execCommand_cases (c : Command) (s : State) :
    (∃ i, decode c = .ok i ∧ execCommand c s = exec i s) ∨
    (∃ op, decode c = .error (.illegalOp op) ∧ execCommand c s = .next (raiseIllegalOp s)) := by
  unfold execCommand
  cases decode c with
  | ok i => exact .inl ⟨i, rfl, rfl⟩
  | error e => cases e with | illegalOp op => exact .inr ⟨op, rfl, rfl⟩

@[simp] theorem takeEvent_reset (s : State) : takeEvent .reset s = .next (resetBlock s) := rfl

@[simp] theorem takeEvent_resetWithCommand (c : Command) (s : State) :
    takeEvent (.resetWithCommand c) s = .next (resetBlock s) := rfl

/-- A command is executed once a reset has occurred, and has no step before. -/
theorem takeEvent_command (c : Command) (s : State) :
    takeEvent (.command c) s =
      if s.hasReset then execCommand c s else .refused .beforeFirstReset := rfl

/-- Everything an event can do when it has a next state: an accepted command, or a reset. -/
theorem takeEvent_cases {e : HostEvent} {s t : State} (h : takeEvent e s = .next t) :
    (∃ c, e = .command c ∧ s.hasReset = true ∧ execCommand c s = .next t) ∨
    ((e = .reset ∨ ∃ c, e = .resetWithCommand c) ∧ t = resetBlock s) := by
  cases e with
  | command c =>
    rw [takeEvent_command] at h
    split at h
    · exact .inl ⟨c, rfl, ‹_›, h⟩
    · cases h
  | reset => exact .inr ⟨.inl rfl, by simpa using h.symm⟩
  | resetWithCommand c => exact .inr ⟨.inr ⟨c, rfl⟩, by simpa using h.symm⟩

/-- Everything a step can do when it has a next state: the first pending event leaves the list and
takes effect. -/
theorem step_cases {s t : State} (h : step s = .next t) :
    ∃ e es, s.pending = e :: es ∧ takeEvent e (s.offer es) = .next t := by
  unfold step at h
  cases hp : s.pending with
  | nil => rw [hp] at h; cases h
  | cons e es => rw [hp] at h; exact ⟨e, es, rfl, h⟩

/-- A run over no event changes nothing but what the host offers. -/
theorem runEvents_nil (s : State) : runEvents [] s = .next (s.offer []) := rfl

/-- A run of one step more: the step's next state is run on. -/
theorem runSteps_succ {s t : State} (n : Nat) (h : step s = .next t) :
    runSteps (n + 1) s = runSteps n t := by
  simp only [runSteps, h]

/-- The model's runs are the host interface's runs of its machine. -/
theorem runSteps_eq_core_run (n : Nat) (s : State) :
    runSteps n s = Host.Core.run Sys2Proof.core n s := by
  induction n generalizing s with
  | zero => rfl
  | succ n ih =>
    cases h : step s with
    | next t =>
      have h' : Sys2Proof.core.step s = .next t := h
      simp only [runSteps, Host.Core.run, h, h']
      exact ih t
    | fault r => cases r
    | refused r =>
      have h' : Sys2Proof.core.step s = .refused r := h
      simp only [runSteps, Host.Core.run, h, h']
      rfl

/-- A run over an event and more: once the event has taken effect, the rest is run from there. -/
theorem runEvents_cons {e : HostEvent} {es : List HostEvent} {s t : State}
    (h : takeEvent e (s.offer es) = .next t) :
    runEvents (e :: es) s = runSteps es.length t :=
  runSteps_succ es.length (s := s.offer (e :: es)) h

end Sys2Proof.Machine
end

