-- ==== Sys2Proof/Tests/Slice0.lean ====
section
/-! SUPPORT. Tests of the model, with the expected values of spec/, and for each statement with
hypotheses a witness that meets them. -/

namespace Sys2Proof.Machine.Tests

/-- A state after reset with the given bitmaps and pending events. -/
def st (tbm : TinyBitmap) (sbm : Memory) (pending : List HostEvent := []) : State :=
  { State.reset with tbm := tbm, sbm := sbm, pending := pending }

/-- The response of an outcome, if it is a next state that shows one. -/
def answer : Host.Outcome State Fault Refusal → Option Response
  | .next t => t.rsp
  | .fault _ => none
  | .refused _ => none

/-- The bitmaps of an outcome, if it is a next state. -/
def bitmapsAfter : Host.Outcome State Fault Refusal → Option (TinyBitmap × Memory)
  | .next t => some t.bitmaps
  | .fault _ => none
  | .refused _ => none

/-- The state of an outcome, if it is a next state. -/
def after : Host.Outcome State Fault Refusal → Option State
  | .next t => some t
  | .fault _ => none
  | .refused _ => none

/-- The digest `DG3776` of 95_test_vectors.md, as the number `arg`. -/
def dg3776 : Digest := 0x22AAB655E8CEE11026F05C556C830F46F0D98B4F84C6B187E18A8BCEDB8AB7F9#256

/-! ### Words written out from the encodings of R53 and R54 -/

theorem test_decode_nop : decode ⟨0b0000#4, 0x1#256⟩ = .ok .nop := by decide

theorem test_decode_tset : decode ⟨0b0001#4, 0xFFFF0000230C#256⟩ = .ok (.tset 0x230C#16) := by decide

theorem test_decode_ttest : decode ⟨0b0010#4, 0b1100110010100001#256⟩ = .ok (.ttest 0xCCA1#16) := by
  decide

theorem test_decode_trd : decode ⟨0b0011#4, 0x1234#256⟩ = .ok .trd := by decide

theorem test_decode_sbset : decode ⟨0b0101#4, 0b10101001#256⟩ = .ok (.sbset 0xA9#8) := by decide

theorem test_decode_stest :
    decode ⟨0b0110#4, 0x1FFFFFFFF#256⟩ = .ok (.stest 0xFFFFFFFF#32) := by decide

theorem test_decode_sbrd : decode ⟨0b0111#4, 0b111111#256⟩ = .ok (.sbrd 31#5) := by decide

theorem test_decode_red16 : decode ⟨0b1000#4, dg3776⟩ = .ok (.red16 dg3776) := by decide

theorem test_decode_red32 : decode ⟨0b1001#4, dg3776⟩ = .ok (.red32 dg3776) := by decide

theorem test_decode_reserved : decode ⟨0b1010#4, 0x0#256⟩ = .error (.illegalOp 0xA#4) := by decide

/-- R51: the opcode is `CW[259:256]`, above the 256 bits of `arg`. -/
theorem test_word_of_tset : Command.ofWord (0x1#4 ++ 0xCCA1#256) = ⟨0x1#4, 0xCCA1#256⟩ := by decide

theorem test_encode_sbset : encode (.sbset 0xA9#8) = ⟨0x5#4, 0xA9#256⟩ := by decide

theorem test_unit_and_fn_of_stest : Opcode.unitField 0x6#4 = 1#2 ∧ Opcode.fnField 0x6#4 = 2#2 := by
  decide

/-! ### The host's table words -/

theorem test_table_word_tset : decodeTableWord 8 0x1 = some (.tset 0x0#16) := by decide

theorem test_table_word_reserved : decodeTableWord 8 0x4 = none := by decide

theorem test_step_of_fetch_word :
    answer (step (State.reset.withFetchWord 8 0x3)) = some ⟨false, 0#32⟩ := by decide

/-! ### Ill-formed terms, each refused by its check -/

theorem smoke_reserved_opcodes : ∀ op ∈ [0x4#4, 0xA#4, 0xB#4, 0xC#4, 0xD#4, 0xE#4, 0xF#4],
    (Command.mk op 0#256).wellFormed = false := by decide

theorem smoke_tset_too_wide : (AsmStmt.tset 0x10000).assemble = .error .operandDoesNotFit := by decide

theorem smoke_stest_too_wide : (AsmStmt.stest 0x100000000).assemble = .error .operandDoesNotFit := by
  decide

theorem smoke_sbset_too_wide : (AsmStmt.sbset 256).assemble = .error .operandDoesNotFit := by decide

theorem smoke_sbset_offset : (AsmStmt.sbsetAt 32 0).assemble = .error .operandDoesNotFit := by decide

theorem smoke_sbset_bit : (AsmStmt.sbsetAt 0 8).assemble = .error .operandDoesNotFit := by decide

theorem smoke_sbrd_too_wide : (AsmStmt.sbrd 32).assemble = .error .operandDoesNotFit := by decide

theorem smoke_tbit_too_wide : (AsmStmt.tbit 16).assemble = .error .operandDoesNotFit := by decide

theorem smoke_raw_opcode : (AsmStmt.raw 16 0).assemble = .error .operandDoesNotFit := by decide

theorem smoke_digest_length :
    (AsmStmt.red16 (List.replicate 63 0)).assemble = .error .notADigest := by decide

theorem smoke_digest_digit :
    (AsmStmt.red32 (List.replicate 64 16)).assemble = .error .notADigest := by decide

theorem smoke_expectation_too_wide :
    ScriptLine.assemble ⟨some .trd, some (.value 0x100000000)⟩ = .error .operandDoesNotFit := by decide

theorem smoke_expectation_after_sset :
    ScriptLine.assemble ⟨some (.sset 0), some .mayExist⟩ = .error .expectationNotAllowed := by decide

theorem smoke_not_a_line : parseLine "TSET".toList = .error .notALine := by decide

/-! ### The assembler's text -/

theorem test_parse_tset : parseLine "TSET  0xCCA1   => 0x1402  ; TBM = 0x1402".toList =
    .ok ⟨some (.tset 0xCCA1), some (.value 0x1402)⟩ := by decide

theorem test_parse_sbset_pair : parseLine "SBSET 21, 0 => 0x03".toList =
    .ok ⟨some (.sbsetAt 21 0), some (.value 3)⟩ := by decide

theorem test_parse_raw : parseLine ".RAW 0x4, 0xCCA1 => ERR".toList =
    .ok ⟨some (.raw 4 0xCCA1), some .err⟩ := by decide

theorem test_sbset_pair_assembles :
    (AsmStmt.sbsetAt 21 0).assemble = .ok [.command ⟨0x5#4, 0xA8#256⟩] := by decide

/-! ### One step of each instruction, with the values of 95_test_vectors.md -/

/-- 40_hash_reducers.md R83, vector VR1. -/
theorem test_red16 : answer (exec (.red16 dg3776) State.reset) = some ⟨false, 0xCCA1#32⟩ := by decide

/-- Vector VR14: `d[7] = AB`, whose byte order big-endian words would change. -/
theorem test_red32_byte_order :
    answer (exec (.red32 0xAB00000000000000#256) State.reset) = some ⟨false, 0xAB000000#32⟩ := by decide

/-- R84, vector VR1. -/
theorem test_red32 : answer (exec (.red32 dg3776) State.reset) = some ⟨false, 0xCE0802A9#32⟩ := by decide

/-- Vector VR1 in the reading the spec does not take. -/
theorem test_red32_big : reduce32With .big dg3776 = 0xA90208CE#32 := by decide

/-- W2: from 0x1402, `TSET 0x230C => 0x140F`. -/
theorem test_tset : bitmapsAfter (exec (.tset 0x230C#16) (st 0x1402#16 [])) = some (0x140F#16, []) ∧
    answer (exec (.tset 0x230C#16) (st 0x1402#16 [])) = some ⟨false, 0x140F#32⟩ := by decide

/-- VT2: `h = 0` is not a no-op. -/
theorem test_tset_zero : answer (exec (.tset 0x0000#16) State.reset) = some ⟨false, 0x0001#32⟩ := by decide

/-- VT5. -/
theorem test_ttest : answer (exec (.ttest 0xC1A0#16) (st 0x140F#16 [])) = some ⟨false, 2#32⟩ ∧
    answer (exec (.ttest 0x0004#16) (st 0x140F#16 [])) = some ⟨false, 1#32⟩ := by decide

/-- VT1. -/
theorem test_trd : answer (exec .trd (st 0x1402#16 [])) = some ⟨false, 0x1402#32⟩ := by decide

/-- VS7: `SBSET 21, 0` after `SBSET 0xA9`. -/
theorem test_sbset : bitmapsAfter (exec (.sbset 0xA8#8) (st 0 [(21, 0x02#8)])) =
      some (0, [(21, 0x03#8)]) ∧
    answer (exec (.sbset 0xA8#8) (st 0 [(21, 0x02#8)])) = some ⟨false, 0x03#32⟩ := by decide

/-- VS10: a byte between two listed ones keeps the canonical order. -/
theorem test_sbset_order : bitmapsAfter (exec (.sbset 0x08#8) (st 0 [(0, 0x04#8), (21, 0x02#8)])) =
    some (0, [(0, 0x04#8), (1, 0x01#8), (21, 0x02#8)]) := by decide

/-- R122's example. -/
theorem test_stest :
    answer (exec (.stest 0xCE0802A9#32)
      (st 0 [(0, 0x04#8), (1, 0x01#8), (21, 0x02#8), (25, 0x40#8)])) = some ⟨false, 2#32⟩ ∧
    answer (exec (.stest 0xCE0802A8#32)
      (st 0 [(0, 0x04#8), (1, 0x01#8), (21, 0x02#8), (25, 0x40#8)])) = some ⟨false, 1#32⟩ := by decide

/-- VS8. -/
theorem test_sbrd : answer (exec (.sbrd 25#5) (st 0 [(21, 0x02#8), (25, 0x40#8)])) =
    some ⟨false, 0x40#32⟩ := by decide

/-- VC1. -/
theorem test_nop : answer (exec .nop (st 0x1402#16 [])) = some ⟨false, 0#32⟩ := by decide

/-- VC2: a reserved opcode answers ERR and keeps the state. -/
theorem test_illegal_op :
    answer (execCommand ⟨0xF#4, 0xFFFF#256⟩ (st 0x1402#16 [(3, 0x01#8)])) = some ⟨true, 0#32⟩ ∧
    bitmapsAfter (execCommand ⟨0xF#4, 0xFFFF#256⟩ (st 0x1402#16 [(3, 0x01#8)])) =
      some (0x1402#16, [(3, 0x01#8)]) := by decide

/-- VT9: a reset clears, and gives no response. -/
theorem test_reset_event :
    after (step (st 0x1402#16 [(3, 0x01#8)] [.reset])) = some State.reset := by decide

theorem test_stuck_without_event : after (step State.reset) = none := by decide

/-! ### Witnesses of the statements' hypotheses -/

theorem witness_ResetClearsBothBitmapsAndAloneClearsBits :
    (st 0xFFFF#16 [(31, 0x80#8)] [.reset, .reset]).pending = .reset :: [.reset] ∧
    takeEvent .reset (st 0x8000#16 [(31, 0x80#8)]) = .next (resetBlock (st 0x8000#16 [(31, 0x80#8)])) ∧
    (st 0x8000#16 [(31, 0x80#8)]).tbm.getLsbD 15 = true ∧
    (resetBlock (st 0x8000#16 [(31, 0x80#8)])).tbm.getLsbD 15 = false ∧
    memBit (st 0x8000#16 [(31, 0x80#8)]).sbm 31#5 7#3 = true ∧
    memBit (resetBlock (st 0x8000#16 [(31, 0x80#8)])).sbm 31#5 7#3 = false :=
  ⟨rfl, rfl, by decide, by decide, by decide, by decide⟩

theorem witness_AnswersDirectlyAfterReset :
    State.reset = State.reset ∧
    takeEvent .reset (State.powerOn 0xBEEF#16 [(3, 7#8)]) =
      .next (resetBlock (State.powerOn 0xBEEF#16 [(3, 7#8)])) := ⟨rfl, rfl⟩

theorem witness_ResetWinsOverOfferedCommand :
    decode ⟨0x4#4, 0#256⟩ = .error (.illegalOp 0x4#4) ∧
    (st 0 [] [.resetWithCommand ⟨0x1#4, 0#256⟩]).pending = .resetWithCommand ⟨0x1#4, 0#256⟩ :: [] ∧
    (st 0 [] [.command ⟨0x1#4, 0#256⟩]).pending = .command ⟨0x1#4, 0#256⟩ :: [] ∧
    (st 0 [] [.command ⟨0x1#4, 0#256⟩]).hasReset = true := ⟨by decide, rfl, rfl, rfl⟩

theorem witness_NoCommandBeforeFirstReset :
    ((State.powerOn 0xBEEF#16 []).offer [.command ⟨0x3#4, 0#256⟩]).hasReset = false ∧
    ((State.powerOn 0xBEEF#16 []).offer [.command ⟨0x3#4, 0#256⟩]).pending =
      .command ⟨0x3#4, 0#256⟩ :: [] ∧
    ((State.powerOn 0xBEEF#16 []).offer [.reset]).pending = .reset :: [] := ⟨rfl, rfl, rfl⟩

theorem witness_ResetStateMeetsInv : Memory.wf [(0, 0x01#8), (31, 0x80#8)] = true := by decide

theorem witness_EveryStepKeepsInv :
    Inv (st 0x1402#16 [(31, 0x80#8)] [.command ⟨0x3#4, 0#256⟩]) ∧
    ∃ t, step (st 0x1402#16 [(31, 0x80#8)] [.command ⟨0x3#4, 0#256⟩]) = .next t :=
  ⟨⟨by decide, fun r h => by simp [st] at h, fun r h => by simp [st] at h⟩, _, rfl⟩

theorem witness_DecodeAndEncodeAgree : (Instr.sbrd 31#5).wellFormed = true ∧
    decodeWord (0x7#4 ++ 0x3F#256) = .ok (.sbrd 31#5) := by decide

theorem witness_UnnamedArgBitsAreIgnored :
    0x3F#256 &&& namedArgBits 0x7#4 = 0x1F#256 &&& namedArgBits 0x7#4 ∧
    Opcode.isReserved 0x9#4 = false ∧ (∀ op arg, AsmStmt.sbrd 31 ≠ .raw op arg) ∧
    (AsmStmt.sbrd 31).assemble = .ok [.command ⟨0x7#4, 31#256⟩] ∧
    HostEvent.command ⟨0x7#4, 31#256⟩ ∈ [HostEvent.command ⟨0x7#4, 31#256⟩] :=
  ⟨by decide, by decide, by simp, by decide, List.mem_singleton.mpr rfl⟩

theorem witness_ReservedOpcodesAreTheSevenListed :
    Opcode.isReserved (Command.mk 0xF#4 0#256).op = true := by decide

theorem witness_DecoderFollowsOpcodeMap :
    (⟨"RED32", .DIG, 0x9, 0xF⟩ : OpcodeRow) ∈ opcodeRows ∧
    (⟨"RED32", .DIG, 0x9, 0xF⟩ : OpcodeRow).selects 0x9#4 = true ∧ rowOf 0xA#4 = none := by decide

theorem witness_StepRunsDecodedInstruction :
    (st 0 [] [.command ⟨0x7#4, 0x35#256⟩]).hasReset = true ∧
    (st 0 [] [.command ⟨0x7#4, 0x35#256⟩]).pending = .command ⟨0x7#4, 0x35#256⟩ :: [] ∧
    decode ⟨0x7#4, 0x35#256⟩ = .ok (.sbrd 21#5) ∧ (Instr.sbrd 21#5).wellFormed = true :=
  ⟨rfl, rfl, by decide, rfl⟩

theorem witness_Reduce16IsXorOfSixteenWords :
    (15 < 16) ∧ (List.range 16).reverse.Perm (List.range 16) :=
  ⟨by decide, List.reverse_perm _⟩

theorem witness_Reduce32FoldsFourWords : (0 < 4) ∧ (3 < 4) := by decide

theorem witness_Red32AnswersReduce32 : (31 < 32) ∧ ∀ i < 32, dbyte
    0x1F1E1D1C1B1A191817161514131211100F0E0D0C0B0A09080706050403020100#256 i = BitVec.ofNat 8 i := by
  decide

theorem witness_EqualDigestsReduceAlike :
    (0x9#4 = 0x8#4 ∨ 0x9#4 = 0x9#4) ∧ State.reset.hasReset = true := by decide

theorem witness_ReducersAreLinear : (0 < 256) ∧ (255 < 256) := by decide

theorem witness_Reduce16IsNotInjective :
    (15 < 256) ∧ (255 < 256) ∧ (15 ≠ 255) ∧ 15 % 16 = 255 % 16 := by decide

theorem witness_TinyMaskHasTheProbeBits :
    ∀ p, (∃ i, probe4 0x3210#16 i = p) ↔ (∃ i, probe4 0x0123#16 i = p) := by decide

theorem witness_TsetRecordsTheProbes :
    tinyMask 0x0123#16 &&& (st 0x000F#16 []).tbm = tinyMask 0x0123#16 ∧
    (st 0xFFFF#16 []).tbm = 0xFFFF#16 ∧ State.reset.tbm = 0x0000#16 := by decide

theorem witness_TtestAnswersByProbe : State.reset.tbm = 0x0000#16 ∧
    (st 0xFFFF#16 []).tbm = 0xFFFF#16 ∧ (st 0x140F#16 []).tbm = 0x140F#16 := by decide

theorem witness_TbmIsOrOfRecordedMasks :
    (∀ h, h ∈ [0xCCA1#16, 0xCCA1#16] ↔ h ∈ [0xCCA1#16]) ∧
    (∃ t, runEvents (.reset :: [0xCCA1#16, 0xCCA1#16].map fun h => .command (encode (.tset h)))
      State.reset = .next t) ∧
    (∃ u, runEvents (.reset :: [0xCCA1#16].map fun h => .command (encode (.tset h)))
      State.reset = .next u) := ⟨by simp, ⟨_, rfl⟩, _, rfl⟩

theorem witness_NoFalseNegativeInTinyFilter : State.reset.hasReset = true := rfl

theorem witness_EmptyTinyFilterFindsNothing :
    (0xFFFE#16).getLsbD (probe4 0x3210#16 0).toNat = false ∧
    ∀ c ∈ [encode .trd, encode (.sbset 0x01#8)], c.op ≠ 0x1#4 := by decide

theorem witness_TinyFilterIsMonotoneAndSaturates :
    BitSubset 0x000F#16 0x140F#16 ∧ tinyTest 0x000F#16 0x0123#16 = .mayExist :=
  ⟨by unfold BitSubset; decide, by decide⟩

theorem witness_TbmBitMeansProbeRecorded : (0 < 16) ∧ (15 < 16) := by decide

theorem witness_TbmOnlyGrowsUnderCommands :
    (∃ t, execCommand (encode (.tset 0xFFFF#16)) State.reset = .next t) ∧
    (encode (.tset 0xFFFF#16)).op = 0x1#4 ∧ (encode .trd).op ≠ 0x1#4 ∧
    (∃ t, execCommand (encode .trd) State.reset = .next t) ∧
    (∃ t, takeEvent .reset State.reset = .next t) :=
  ⟨⟨_, rfl⟩, rfl, by decide, ⟨_, rfl⟩, _, rfl⟩

theorem witness_SmallTestExaminesFourBits : Function.Bijective (fun i : Fin 4 => 3 - i) ∧
    ∀ i, probe8 0xA90208CE#32 i = probe8 0xCE0802A9#32 (3 - i) := by decide

/-- A small bitmap with every bit set. -/
def fullSbm : Memory := (List.range 32).map fun k => (k, 0xFF#8)

theorem witness_StestAnswersByProbeByte :
    (∀ k, memRead State.reset.sbm k = 0x00#8) ∧ (∀ k, memRead (st 0 fullSbm).sbm k = 0xFF#8) ∧
    (st 0 [(0, 0x04#8), (1, 0x01#8), (21, 0x02#8), (25, 0x40#8)]).sbm =
      [(0, 0x04#8), (1, 0x01#8), (21, 0x02#8), (25, 0x40#8)] := by decide

theorem witness_SbsetSetsOneBit :
    (31#5 = (0xFF#8).extractLsb' 3 5 ∧ 30#5 ≠ (0xFF#8).extractLsb' 3 5) ∧
    probeBit (st 0 fullSbm).sbm 0xFF#8 = true ∧
    (∃ t, execCommand (encode (.sbset 0x00#8)) (st 0 fullSbm) = .next t) ∧
    memBit (st 0 fullSbm).sbm 0#5 0#3 = true :=
  ⟨by decide, by decide, ⟨_, rfl⟩, by decide⟩

theorem witness_SmallSetbitLaws : Memory.wf fullSbm = true ∧ memBit fullSbm 31#5 7#3 = true := by decide

theorem witness_SbmOnlyGrowsUnderCommands :
    (∃ t, execCommand (encode (.sbset 0xFF#8)) State.reset = .next t) ∧
    (encode (.sbset 0xFF#8)).op = 0x5#4 ∧ (encode .nop).op ≠ 0x5#4 ∧
    (∃ t, execCommand (encode .nop) State.reset = .next t) ∧
    (∃ t, takeEvent (.resetWithCommand (encode .nop)) State.reset = .next t) :=
  ⟨⟨_, rfl⟩, rfl, by decide, ⟨_, rfl⟩, _, rfl⟩

theorem witness_FiltersAreUnrelated :
    (∃ t, execCommand (encode (.ttest 0x1111#16)) (st 0x0002#16 []) = .next t) ∧
    (∃ t, execCommand (encode (.ttest 0x1111#16)) (st 0x0002#16 fullSbm) = .next t) ∧
    (st 0x0002#16 []).tbm = (st 0x0002#16 fullSbm).tbm ∧
    Opcode.unitField (encode (.ttest 0x1111#16)).op = 0#2 ∧
    (∃ t, execCommand (encode (.sbrd 31#5)) (st 0x0001#16 []) = .next t) ∧
    (st 0x0001#16 []).sbm = (st 0x0002#16 []).sbm ∧
    Opcode.unitField (encode (.sbrd 31#5)).op = 1#2 :=
  ⟨⟨_, rfl⟩, ⟨_, rfl⟩, rfl, by decide, ⟨_, rfl⟩, rfl, by decide⟩

theorem witness_DefinedCommandsNeverFail : (Command.mk 0x9#4 0#256).wellFormed = true := by decide

theorem witness_IllegalOpLeavesBlockIntact :
    Opcode.isReserved (Command.mk 0xA#4 0x1#256).op = true ∧
    ∃ t, execCommand ⟨0xA#4, 0x1#256⟩ (st 0x1402#16 [(3, 0x01#8)]) = .next t := ⟨by decide, _, rfl⟩

theorem witness_InstructionFrames :
    (∃ t, exec (.tset 0xFFFF#16) State.reset = .next t) ∧
    (tinyMask 0xFFFF#16).getLsbD 14 = false ∧
    (∃ t, exec (.sbset 0xFF#8) State.reset = .next t) ∧ 30#5 ≠ slot 0xFF#8 ∧
    (∃ t, exec (.red32 dg3776) State.reset = .next t) :=
  ⟨⟨_, rfl⟩, by decide, ⟨_, rfl⟩, by decide, _, rfl⟩

theorem witness_CommandsDependOnBitmapsAlone :
    (st 0x1402#16 [(3, 0x01#8)]).bitmaps = ((st 0x1402#16 [(3, 0x01#8)]).give ⟨true, 0⟩).bitmaps :=
  rfl

theorem witness_RunOfCommandsAnswersEach : State.reset.hasReset = true := rfl

theorem witness_RunsTakeEffectInOrder :
    (∃ t, runEvents [.reset, .command (encode .trd)] (State.powerOn 0xBEEF#16 []) = .next t) ∧
    State.reset.hasReset = true := ⟨⟨_, rfl⟩, rfl⟩

theorem witness_TestsAnswerOneOrTwo :
    (encode (.ttest 0x0000#16)).op = 0x2#4 ∧ (encode (.stest 0xFFFFFFFF#32)).op = 0x6#4 := ⟨rfl, rfl⟩

theorem witness_CommutingCommands :
    State.reset.hasReset = true ∧ State.reset.sbm.wf = true ∧ (st 0 fullSbm).sbm.wf = true := by decide

theorem witness_PseudoInstructionsExpand :
    State.reset.hasReset = true ∧ State.reset.sbm.wf = true ∧
    (ssetCommands 0xCE0802A9#32).reverse.Perm (ssetCommands 0xCE0802A9#32) :=
  ⟨rfl, rfl, List.reverse_perm _⟩

theorem witness_AssembledStatementsDecode :
    (List.replicate 64 15).length = 64 ∧ (∀ x ∈ List.replicate 64 15, x < 16) ∧
    (List.replicate 63 15).length ≠ 64 ∧ (∃ x ∈ 16 :: List.replicate 63 15, 16 ≤ x) ∧
    (∀ op arg, AsmStmt.tbit 10 ≠ .raw op arg) ∧
    (AsmStmt.tbit 10).assemble = .ok [.command (encode (.tset 0xAAAA#16))] ∧
    2 ^ 16 ≤ 65536 ∧ 2 ^ 32 ≤ 4294967296 ∧ 2 ^ 8 ≤ 256 ∧ 2 ^ 5 ≤ 32 ∧ 2 ^ 4 ≤ 16 ∧ 2 ^ 3 ≤ 8 :=
  ⟨by decide, by decide, by decide, ⟨16, by simp, Nat.le_refl _⟩, fun _ _ h => (nomatch h),
    by decide, by decide, by decide, by decide, by decide, by decide, by decide⟩

theorem witness_EveryCommandStepKeepsFoundIndices :
    (∃ t, step (st 0x1402#16 [] [.command (encode (.tset 0x0000#16))]) = .next t) ∧
    BitSubset (tinyMask 0xCCA1#16) 0x1402#16 ∧ decode (encode (.tset 0x0000#16)) = .ok (.tset 0#16) ∧
    (∃ t, step (st 0 [(31, 0x80#8)] [.command (encode (.sbset 0x00#8))]) = .next t) ∧
    (∀ i, memBit [(31, 0x80#8)] (slot (probe8 0xFF00FFFF#32 i)) (bitpos (probe8 0xFF00FFFF#32 i)) = true ∨
      decode (encode (.sbset 0x00#8)) = .ok (.sbset (probe8 0xFF00FFFF#32 i))) ∧
    (∃ t, step (st 0xFFFF#16 fullSbm [.reset]) = .next t) :=
  ⟨⟨_, rfl⟩, by unfold BitSubset; decide, by decide, ⟨_, rfl⟩, by decide, _, rfl⟩

end Sys2Proof.Machine.Tests
end

section
/-! PROOFS. The family 10_state.md: what a command does to each bitmap, said once; what a run of commands
after a reset leaves, by one induction over the commands executed so far; and the statements O1, O37,
O38 and O46. -/

namespace Sys2Proof.Machine

/-! ### Bits of the masks -/

/-- `1 << p` has bit `p` set and no other (R100). -/
theorem one_shiftLeft_getLsbD (p : BitVec 4) (b : Nat) :
    (0x0001#16 <<< p).getLsbD b = true ↔ p.toNat = b := by
  have hp : p.toNat < 16 := p.isLt
  rw [BitVec.shiftLeft_eq', ← BitVec.twoPow_eq, BitVec.getLsbD_twoPow]
  simp [hp]

/-- `tiny_mask(h)` has exactly the bits of the probes of `h` (R100). -/
theorem tinyMask_getLsbD (h : TinyIndex) (b : Nat) :
    (tinyMask h).getLsbD b = true ↔ ∃ i, (probe4 h i).toNat = b := by
  simp only [tinyMask, BitVec.getLsbD_or, Bool.or_eq_true, one_shiftLeft_getLsbD]
  simp [Fin.exists_fin_succ, or_assoc]

/-- `1 << bit` has bit `bit` of the byte set and no other (R31). -/
theorem bitMask_getLsbD (bit b : BitPosition) :
    (bitMask bit).getLsbD b.toNat = true ↔ b = bit := by
  revert bit b; decide

/-- A probe byte's offset is its value divided by 8 (R32). -/
theorem slot_toNat (a : ProbeByte) : (slot a).toNat = a.toNat / 8 := by
  revert a; decide

/-- A probe byte's bit position is its value modulo 8 (R32). -/
theorem bitpos_toNat (a : ProbeByte) : (bitpos a).toNat = a.toNat % 8 := by
  revert a; decide

/-- A probe byte addresses the bit whose global number it is (R31, R32). -/
theorem slot_bitpos_iff (a : ProbeByte) (off : ByteOffset) (bit : BitPosition) :
    (off = slot a ∧ bit = bitpos a) ↔ a.toNat = 8 * off.toNat + bit.toNat := by
  rw [← BitVec.toNat_inj, ← BitVec.toNat_inj, slot_toNat, bitpos_toNat]
  omega

/-- A bitmap is a subset of itself with more bits set. -/
theorem bitSubset_or {n : Nat} (x y : BitVec n) : BitSubset x (x ||| y) := by
  refine BitVec.eq_of_getLsbD_eq fun b _ => ?_
  simp +contextual

/-! ### The small bitmap -/

/-- `small_setbit` sets one bit and leaves every other as it was, in any memory (R121). -/
theorem memBit_smallSetbit (m : Memory) (off k : ByteOffset) (bit b : BitPosition) :
    memBit (smallSetbit m off bit) k b = true ↔ memBit m k b = true ∨ (k = off ∧ b = bit) := by
  rw [memBit_eq_getLsbD, memBit_eq_getLsbD, smallSetbit]
  by_cases hk : k = off
  · subst hk
    rw [memRead_memWrite_self m k (smallSetByte_ne_unlisted m k bit), smallSetByte,
      BitVec.getLsbD_or, Bool.or_eq_true, bitMask_getLsbD]
    simp
  · rw [memRead_memWrite_other m _ hk]
    simp [hk]

/-- A small bitmap in canonical form lists addresses of the 32 bytes alone (R30). -/
theorem Memory.addr_lt_of_wfFrom {m : Memory} {low : Nat} (h : m.wfFrom low = true) :
    ∀ cell ∈ m, cell.1 < 32 := by
  induction m generalizing low with
  | nil => simp
  | cons c m ih =>
    obtain ⟨k, b⟩ := c
    simp only [Memory.wfFrom, Bool.and_eq_true, decide_eq_true_eq] at h
    obtain ⟨⟨⟨-, hk⟩, -⟩, hm⟩ := h
    exact List.forall_mem_cons.mpr ⟨hk, ih hm⟩

/-! ### What a command does to each bitmap -/

/-- The commands that decode to a TSET are those of opcode 1, whose operand is `arg[15:0]` (R53, R54). -/
theorem decode_eq_tset_iff (c : Command) (h : TinyIndex) :
    decode c = .ok (.tset h) ↔ c.op = 0x1#4 ∧ argIdx16 c.arg = h := by
  constructor
  · intro hd
    unfold decode at hd
    split at hd <;> cases hd
    next hop => exact ⟨BitVec.eq_of_toNat_eq hop, rfl⟩
  · rintro ⟨hop, rfl⟩
    simp [decode, hop]

/-- Every command has a next state, whatever the state (R150, R151). -/
theorem execCommand_next (c : Command) (s : State) : ∃ t, execCommand c s = .next t := by
  obtain ⟨i, -, h⟩ | ⟨_, -, h⟩ := execCommand_cases c s
  · exact ⟨_, h.trans (exec_eq i s)⟩
  · exact ⟨_, h⟩

/-- The bitmaps a command leaves: those of the instruction it decodes to, or the bitmaps it found. -/
theorem execCommand_bitmaps {c : Command} {s t : State} (h : execCommand c s = .next t) :
    (∃ i, decode c = .ok i ∧ t.tbm = instrTbm i s ∧ t.sbm = instrSbm i s) ∨
    ((∀ i, decode c ≠ .ok i) ∧ t.tbm = s.tbm ∧ t.sbm = s.sbm) := by
  obtain ⟨i, hd, he⟩ | ⟨_, hd, he⟩ := execCommand_cases c s
  · rw [he, exec_eq] at h
    cases h
    exact .inl ⟨i, hd, rfl, rfl⟩
  · rw [he] at h
    cases h
    exact .inr ⟨by simp [hd], rfl, rfl⟩

/-- A command's effect on `TBM`: TSET adds its mask, every other command leaves it (R12, R103). -/
theorem execCommand_tbm {c : Command} {s t : State} (h : execCommand c s = .next t) :
    (∃ k, decode c = .ok (.tset k) ∧ t.tbm = s.tbm ||| tinyMask k) ∨
    ((∀ k, decode c ≠ .ok (.tset k)) ∧ t.tbm = s.tbm) := by
  obtain ⟨i, hd, htbm, -⟩ | ⟨hd, htbm, -⟩ := execCommand_bitmaps h
  · cases i with
    | tset k => exact .inl ⟨k, hd, htbm⟩
    | _ => exact .inr ⟨by simp [hd], htbm⟩
  · exact .inr ⟨fun k => hd _, htbm⟩

/-- A command's effect on `SBM`: SBSET sets the bit it addresses, every other command leaves all bytes
(R16, R123). -/
theorem execCommand_sbm {c : Command} {s t : State} (h : execCommand c s = .next t) :
    (∃ a, decode c = .ok (.sbset a) ∧ t.sbm = smallSetbit s.sbm (slot a) (bitpos a)) ∨
    ((∀ a, decode c ≠ .ok (.sbset a)) ∧ t.sbm = s.sbm) := by
  obtain ⟨i, hd, -, hsbm⟩ | ⟨hd, -, hsbm⟩ := execCommand_bitmaps h
  · cases i with
    | sbset a => exact .inl ⟨a, hd, hsbm⟩
    | _ => exact .inr ⟨by simp [hd], hsbm⟩
  · exact .inr ⟨fun a => hd _, hsbm⟩

/-- A command leaves `TBM` a superset of what it was (R13). -/
theorem execCommand_tbm_mono {c : Command} {s t : State} (h : execCommand c s = .next t) :
    BitSubset s.tbm t.tbm := by
  obtain ⟨k, -, htbm⟩ | ⟨-, htbm⟩ := execCommand_tbm h
  · exact htbm ▸ bitSubset_or _ _
  · exact htbm ▸ BitVec.and_self

/-- A bit of `TBM` is set after a command when it was set before or the command records it (R11). -/
theorem execCommand_tbm_getLsbD {c : Command} {s t : State} (h : execCommand c s = .next t)
    (b : Nat) :
    t.tbm.getLsbD b = true ↔ s.tbm.getLsbD b = true ∨
      ∃ k, decode c = .ok (.tset k) ∧ ∃ i, (probe4 k i).toNat = b := by
  obtain ⟨k, hd, htbm⟩ | ⟨hd, htbm⟩ := execCommand_tbm h
  · simp [htbm, hd, tinyMask_getLsbD k b]
  · simp [htbm, hd]

/-- A bit of `SBM` is set after a command when it was set before or the command addresses it (R15). -/
theorem execCommand_memBit {c : Command} {s t : State} (h : execCommand c s = .next t)
    (k : ByteOffset) (b : BitPosition) :
    memBit t.sbm k b = true ↔ memBit s.sbm k b = true ∨
      ∃ a, decode c = .ok (.sbset a) ∧ k = slot a ∧ b = bitpos a := by
  obtain ⟨a, hd, hsbm⟩ | ⟨hd, hsbm⟩ := execCommand_sbm h
  · simp [hsbm, hd, memBit_smallSetbit]
  · simp [hsbm, hd]

/-- A command keeps the small bitmap in canonical form. -/
theorem execCommand_sbm_wf {c : Command} {s t : State} (h : execCommand c s = .next t)
    (hwf : s.sbm.wf = true) : t.sbm.wf = true := by
  obtain ⟨a, -, hsbm⟩ | ⟨-, hsbm⟩ := execCommand_sbm h
  · exact hsbm ▸ smallSetbit_wf _ _ hwf
  · exact hsbm ▸ hwf

/-! ### Runs of commands after a reset -/

/-- A step is what the first pending event does. -/
theorem step_of_pending {e : HostEvent} {es : List HostEvent} {s : State} (h : s.pending = e :: es) :
    step s = takeEvent e (s.offer es) := by
  simp only [step, h]

/-- A run that starts with a reset is the run of its other events from the reset block. -/
theorem runEvents_reset_cons (es : List HostEvent) (s : State) :
    runEvents (.reset :: es) s = runEvents es (resetBlock s) :=
  runEvents_cons (takeEvent_reset _)

/-- A run of commands is its first command and then the others from the state that one leaves. -/
theorem runCommands_cons {c : Command} {cs : List Command} {s t : State} (hr : s.hasReset = true)
    (h : execCommand c (s.offer (cs.map .command)) = .next t) :
    runCommands (c :: cs) s = runCommands cs t := by
  have hp : t.pending = cs.map .command := (execCommand_keeps_host h).1
  have he : takeEvent (.command c) (s.offer (cs.map .command)) = .next t := by
    rw [takeEvent_command, State.offer_hasReset, if_pos hr, h]
  calc runCommands (c :: cs) s
      = runSteps (cs.map HostEvent.command).length t := runEvents_cons he
    _ = runCommands cs t := by rw [runCommands, runEvents, ← hp]; rfl

/-- The induction over a run of commands, packaged once: a property of the commands executed so far and
the two bitmaps that every command keeps holds at the end of the run, which has a next state. -/
theorem runCommands_induct {Q : List Command → TinyBitmap → Memory → Prop}
    (hstep : ∀ (done : List Command) (c : Command) (s t : State), execCommand c s = .next t →
      Q done s.tbm s.sbm → Q (done ++ [c]) t.tbm t.sbm)
    (done cs : List Command) {s : State} (hr : s.hasReset = true) (h : Q done s.tbm s.sbm) :
    ∃ t, runCommands cs s = .next t ∧ Q (done ++ cs) t.tbm t.sbm := by
  induction cs generalizing done s with
  | nil => exact ⟨_, runEvents_nil s, by simpa using h⟩
  | cons c cs ih =>
    obtain ⟨u, hu⟩ := execCommand_next c (s.offer (cs.map .command))
    have hur : u.hasReset = true := (execCommand_keeps_host hu).2.trans hr
    rw [runCommands_cons hr hu, List.append_cons]
    exact ih _ hur (hstep done c _ u hu h)

/-- The same for a run that starts with a reset, from any state: the property need hold only of no
commands and the reset bitmaps. -/
theorem runEvents_reset_commands_induct {Q : List Command → TinyBitmap → Memory → Prop}
    (hstep : ∀ (done : List Command) (c : Command) (s t : State), execCommand c s = .next t →
      Q done s.tbm s.sbm → Q (done ++ [c]) t.tbm t.sbm)
    (hreset : Q [] 0x0000 []) (cs : List Command) (s : State) :
    ∃ t, runEvents (.reset :: cs.map .command) s = .next t ∧ Q cs t.tbm t.sbm := by
  rw [runEvents_reset_cons]
  exact runCommands_induct hstep [] cs (resetBlock_hasReset s) hreset

/-- Bit `b` of the tiny bitmap is set exactly when a TSET among the commands had the probe `b` (R11). -/
def TbmRecords (cs : List Command) (bm : TinyBitmap) (_ : Memory) : Prop :=
  ∀ b < 16, bm.getLsbD b = true ↔
    ∃ c ∈ cs, ∃ h, decode c = .ok (.tset h) ∧ ∃ i, (probe4 h i).toNat = b

/-- A bit of the small bitmap is set exactly when an SBSET among the commands addressed it, and the
small bitmap is in canonical form (R15, R30). -/
def SbmRecords (cs : List Command) (_ : TinyBitmap) (m : Memory) : Prop :=
  (∀ (off : ByteOffset) (bit : BitPosition), memBit m off bit = true ↔
    ∃ c ∈ cs, ∃ a, decode c = .ok (.sbset a) ∧ off = slot a ∧ bit = bitpos a) ∧
  m.wf = true

/-- One more command executed is one more command recorded in `TBM`. -/
theorem execCommand_keeps_tbmRecords (done : List Command) (c : Command) (s t : State)
    (h : execCommand c s = .next t) (hq : TbmRecords done s.tbm s.sbm) :
    TbmRecords (done ++ [c]) t.tbm t.sbm := by
  intro b hb
  simp only [execCommand_tbm_getLsbD h b, hq b hb, List.mem_append, List.mem_singleton, or_and_right,
    exists_or, exists_eq_left]

/-- One more command executed is one more command recorded in `SBM`. -/
theorem execCommand_keeps_sbmRecords (done : List Command) (c : Command) (s t : State)
    (h : execCommand c s = .next t) (hq : SbmRecords done s.tbm s.sbm) :
    SbmRecords (done ++ [c]) t.tbm t.sbm := by
  obtain ⟨hbits, hwf⟩ := hq
  refine ⟨fun off bit => ?_, execCommand_sbm_wf h hwf⟩
  simp only [execCommand_memBit h, hbits, List.mem_append, List.mem_singleton, or_and_right, exists_or,
    exists_eq_left]

/-! ### The statements -/

/-- An event after which a bit of either bitmap is lower is no command (R13, R24). -/
theorem isReset_of_bit_cleared {e : HostEvent} {s t : State} (h : takeEvent e s = .next t)
    (hclear : (∃ b, s.tbm.getLsbD b = true ∧ t.tbm.getLsbD b = false) ∨
      (∃ k b, memBit s.sbm k b = true ∧ memBit t.sbm k b = false)) :
    e = .reset ∨ ∃ c, e = .resetWithCommand c := by
  obtain ⟨c, -, -, he⟩ | ⟨hreset, -⟩ := takeEvent_cases h
  · obtain ⟨b, hs, ht⟩ | ⟨k, b, hs, ht⟩ := hclear
    · simp [(execCommand_tbm_getLsbD he b).mpr (.inl hs)] at ht
    · simp [(execCommand_memBit he k b).mpr (.inl hs)] at ht
  · exact hreset

/-- Settles O1: the reset step is `resetBlock`, and a command keeps every set bit of both bitmaps. -/
theorem resetClearsBothBitmapsAndAloneClearsBits :
    Obligations.ResetClearsBothBitmapsAndAloneClearsBits := by
  unfold Obligations.ResetClearsBothBitmapsAndAloneClearsBits
  refine ⟨fun s es hp => ⟨resetBlock (s.offer es), ?_, rfl, memRead_nil, rfl, rfl, rfl⟩, rfl,
    memRead_nil, fun e s t => isReset_of_bit_cleared⟩
  rw [step_of_pending hp, takeEvent_reset]

/-- Settles O37, by induction over the commands executed since the reset. -/
theorem tbmBitMeansProbeRecorded : Obligations.TbmBitMeansProbeRecorded := by
  unfold Obligations.TbmBitMeansProbeRecorded
  exact runEvents_reset_commands_induct execCommand_keeps_tbmRecords (fun b _ => by simp)

/-- Settles O38: the case split of `execCommand_tbm`, TSET being the opcode 1, and of the events. -/
theorem tbmOnlyGrowsUnderCommands : Obligations.TbmOnlyGrowsUnderCommands := by
  unfold Obligations.TbmOnlyGrowsUnderCommands
  constructor
  · intro c s t h
    refine ⟨execCommand_tbm_mono h, ?_⟩
    obtain ⟨k, hd, htbm⟩ | ⟨hd, htbm⟩ := execCommand_tbm h
    · obtain ⟨hop, rfl⟩ := (decode_eq_tset_iff c k).mp hd
      exact ⟨fun hne => absurd hop hne, fun _ => htbm⟩
    · exact ⟨fun _ => htbm, fun hop => absurd ((decode_eq_tset_iff c _).mpr ⟨hop, rfl⟩) (hd _)⟩
  · intro e s t h
    obtain ⟨c, he, -, hc⟩ | ⟨-, rfl⟩ := takeEvent_cases h
    · exact .inl ⟨c, he, execCommand_tbm_mono hc⟩
    · exact .inr (resetBlock_tbm s)

/-- Settles O46, by induction over the commands executed since the reset, with the canonical form. -/
theorem sbmBitMeansProbeByteSet : Obligations.SbmBitMeansProbeByteSet := by
  unfold Obligations.SbmBitMeansProbeByteSet
  intro cs s
  have hreset : SbmRecords [] 0x0000 [] := ⟨fun off bit => by simp [memBit_eq_getLsbD], rfl⟩
  obtain ⟨t, hrun, hbits, hwf⟩ :=
    runEvents_reset_commands_induct execCommand_keeps_sbmRecords hreset cs s
  refine ⟨t, hrun, fun off bit => ?_, Memory.addr_lt_of_wfFrom hwf⟩
  rw [← memBit_eq_getLsbD, hbits]
  simp only [slot_bitpos_iff]

end Sys2Proof.Machine
end

section
/-! PROOFS. The family 20_memory.md: the bit that a probe byte addresses; a run of events taken apart at
its first event and at any event; a filter test directly after the command that records its index; and
the statements O15 and O55. -/

namespace Sys2Proof.Machine

/-! ### The bit a probe byte addresses -/

/-- `slot(a)` is the slice `a[7:3]` (R32). -/
theorem slot_eq_extractLsb' (a : ProbeByte) : slot a = a.extractLsb' 3 5 := by
  refine BitVec.eq_of_toNat_eq ?_
  rw [slot_toNat, BitVec.extractLsb'_toNat, Nat.shiftRight_eq_div_pow]
  omega

/-- `bitpos(a)` is the slice `a[2:0]` (R32). -/
theorem bitpos_eq_extractLsb' (a : ProbeByte) : bitpos a = a.extractLsb' 0 3 := by
  refine BitVec.eq_of_toNat_eq ?_
  rw [bitpos_toNat, BitVec.extractLsb'_toNat, Nat.shiftRight_zero]

/-- A probe byte shifted right by 3 fits in five bits (R32). -/
theorem probeByte_shiftRight_le (a : ProbeByte) : (a >>> 3).toNat ≤ 31 := by
  rw [BitVec.toNat_ushiftRight, Nat.shiftRight_eq_div_pow]
  omega

/-- The mask `0x1F` changes no byte of at most five bits (R32). -/
theorem and_0x1F_of_le {v : Byte} (h : v.toNat ≤ 31) : v &&& 0x1F#8 = v := by
  refine BitVec.eq_of_toNat_eq ?_
  calc (v &&& 0x1F#8).toNat
      = v.toNat % 2 ^ 5 := Nat.and_two_pow_sub_one_eq_mod v.toNat 5
    _ = v.toNat := Nat.mod_eq_of_lt (by omega)

/-- The probe bytes that address a given bit: the one byte of that bit's global number (R31, R32). -/
theorem slot_bitpos_eq_iff (a : ProbeByte) (off : ByteOffset) (bit : BitPosition) :
    (slot a = off ∧ bitpos a = bit) ↔ a = BitVec.ofNat 8 (8 * off.toNat + bit.toNat) := by
  rw [eq_comm (a := slot a), eq_comm (a := bitpos a), slot_bitpos_iff, ← BitVec.toNat_inj,
    BitVec.toNat_ofNat, Nat.mod_eq_of_lt (by omega)]

/-- `1 << bit` as a number (R31). -/
theorem bitMask_eq_ofNat (bit : BitPosition) : bitMask bit = BitVec.ofNat 8 (2 ^ bit.toNat) := by
  refine BitVec.eq_of_toNat_eq ?_
  rw [bitMask, BitVec.shiftLeft_eq', BitVec.toNat_shiftLeft, BitVec.toNat_ofNat, BitVec.toNat_ofNat,
    Nat.shiftLeft_eq, Nat.one_mod, Nat.one_mul]

/-- Settles O15: a probe byte is the global number of the bit it addresses, `slot_bitpos_iff`. -/
theorem probeByteAddressesOneBit : Obligations.ProbeByteAddressesOneBit := by
  unfold Obligations.ProbeByteAddressesOneBit
  refine ⟨fun a => ⟨slot_eq_extractLsb' a, bitpos_eq_extractLsb' a, probeByte_shiftRight_le a,
    and_0x1F_of_le (probeByte_shiftRight_le a), ((slot_bitpos_iff a _ _).mp ⟨rfl, rfl⟩).symm⟩,
    fun off bit => ⟨by omega, ?_⟩, memBit_eq_getLsbD, bitMask_eq_ofNat⟩
  simp only [slot_bitpos_eq_iff, existsUnique_eq]

/-! ### Runs of events, in order -/

/-- An instruction does the same whatever the host has still to offer (R18, R22). -/
theorem exec_offer {i : Instr} {s t : State} (es : List HostEvent) (h : exec i s = .next t) :
    exec i (s.offer es) = .next (t.offer es) := by
  rw [exec_eq] at h
  cases h
  cases i <;> rfl

/-- A command does the same whatever the host has still to offer (R18, R22). -/
theorem execCommand_offer {c : Command} {s t : State} (es : List HostEvent)
    (h : execCommand c s = .next t) : execCommand c (s.offer es) = .next (t.offer es) := by
  unfold execCommand at h ⊢
  split at h
  · exact exec_offer es h
  · cases h
    rfl

/-- An event does the same whatever the host has still to offer (R18, R38). -/
theorem takeEvent_offer {e : HostEvent} {s t : State} (es : List HostEvent)
    (h : takeEvent e s = .next t) : takeEvent e (s.offer es) = .next (t.offer es) := by
  obtain ⟨c, rfl, hr, hc⟩ | ⟨rfl | ⟨c, rfl⟩, rfl⟩ := takeEvent_cases h
  · rw [takeEvent_command, State.offer_hasReset, if_pos hr, execCommand_offer es hc]
  · rfl
  · rfl

/-- A command appends its one response to those observed (R50, R178). -/
theorem execCommand_received {c : Command} {s t : State} (h : execCommand c s = .next t) :
    ∃ r, t.received = s.received ++ [r] := by
  obtain ⟨i, -, he⟩ | ⟨_, -, he⟩ := execCommand_cases c s
  · rw [he, exec_eq] at h
    cases h
    exact ⟨instrResponse i s, rfl⟩
  · rw [he] at h
    cases h
    exact ⟨_, raiseIllegalOp_received s⟩

/-- An event only appends to the responses observed: a command's one, or none at a reset (R50, R170). -/
theorem takeEvent_received {e : HostEvent} {s t : State} (h : takeEvent e s = .next t) :
    ∃ rs, t.received = s.received ++ rs := by
  obtain ⟨c, -, -, hc⟩ | ⟨-, rfl⟩ := takeEvent_cases h
  · obtain ⟨r, hr⟩ := execCommand_received hc
    exact ⟨[r], hr⟩
  · exact ⟨[], (List.append_nil _).symm⟩

/-- A run is its first event and then the run of the others from the state that one leaves (R38). -/
theorem runEvents_cons_of_takeEvent {e : HostEvent} {s u : State} (es : List HostEvent)
    (h : takeEvent e s = .next u) : runEvents (e :: es) s = runEvents es u :=
  runEvents_cons (takeEvent_offer es h)

/-- A run of at least one step that has a last state has a state after its first step. -/
theorem step_of_runSteps_succ {n : Nat} {s t : State} (h : runSteps (n + 1) s = .next t) :
    ∃ u, step s = .next u ∧ runSteps n u = .next t := by
  rw [runSteps] at h
  split at h
  · exact ⟨_, ‹_›, h⟩
  · cases h
  · cases h

/-- A run that has a last state has one after its first event, from which the other events lead there. -/
theorem takeEvent_of_runEvents_cons {e : HostEvent} {es : List HostEvent} {s t : State}
    (h : runEvents (e :: es) s = .next t) :
    ∃ u, takeEvent e s = .next u ∧ runEvents es u = .next t := by
  obtain ⟨u, hu, -⟩ := step_of_runSteps_succ h
  have he : takeEvent e s = .next (u.offer s.pending) :=
    takeEvent_offer (s := (s.offer (e :: es)).offer es) s.pending hu
  exact ⟨_, he, runEvents_cons_of_takeEvent es he ▸ h⟩

/-- A run of events is its first part and then its rest from the state the first part leaves (R38). -/
theorem runEvents_append {es : List HostEvent} {s t : State} (fs : List HostEvent)
    (h : runEvents es s = .next t) : runEvents (es ++ fs) s = runEvents fs t := by
  induction es generalizing s with
  | nil =>
    cases h
    rfl
  | cons e es ih =>
    obtain ⟨u, hu, hrun⟩ := takeEvent_of_runEvents_cons h
    exact (runEvents_cons_of_takeEvent (es ++ fs) hu).trans (ih hrun)

/-- A run of events only appends to the responses observed. -/
theorem runEvents_received {es : List HostEvent} {s t : State} (h : runEvents es s = .next t) :
    ∃ rs, t.received = s.received ++ rs := by
  induction es generalizing s with
  | nil =>
    cases h
    exact ⟨[], (List.append_nil _).symm⟩
  | cons e es ih =>
    obtain ⟨u, hu, hrun⟩ := takeEvent_of_runEvents_cons h
    obtain ⟨rs, hrs⟩ := takeEvent_received hu
    obtain ⟨rs', hrs'⟩ := ih hrun
    exact ⟨rs ++ rs', by rw [hrs', hrs, List.append_assoc]⟩

/-! ### A filter test directly after the command that records its index -/

/-- An operand widened to `arg` and read back at its own width is unchanged (R53). -/
theorem extractLsb'_setWidth_arg {n : Nat} (hn : n ≤ 256) (v : BitVec n) :
    (v.setWidth 256).extractLsb' 0 n = v := by
  rw [← BitVec.setWidth_eq_extractLsb' hn, BitVec.setWidth_setWidth_of_le _ hn, BitVec.setWidth_eq]

/-- Every instruction decodes back from its encoding (R53, R54). -/
theorem decode_encode (i : Instr) : decode (encode i) = .ok i := by
  cases i with
  | nop | trd | red16 _ | red32 _ => rfl
  | tset _ | ttest _ | sbset _ | stest _ | sbrd _ =>
    simp [decode, encode, argIdx16, argIdx32, argProbe, argOff5, extractLsb'_setWidth_arg]

/-- An instruction's encoding is executed as that instruction. -/
theorem execCommand_encode (i : Instr) (s : State) : execCommand (encode i) s = exec i s := by
  simp only [execCommand, decode_encode]

/-- A run of two encoded instructions is the first and then the second from the state it leaves (R38). -/
theorem runCommands_encode_pair {i j : Instr} {s u t : State} (hr : s.hasReset = true)
    (hi : exec i s = .next u) (hj : exec j u = .next t) :
    runCommands [encode i, encode j] s = .next (t.offer []) := by
  have hu : u.hasReset = true := (exec_keeps_host hi).2.trans hr
  have hfirst : takeEvent (.command (encode i)) s = .next u := by
    rw [takeEvent_command, if_pos hr, execCommand_encode, hi]
  have hsecond : takeEvent (.command (encode j)) u = .next t := by
    rw [takeEvent_command, if_pos hu, execCommand_encode, hj]
  calc runCommands [encode i, encode j] s
      = runEvents [.command (encode j)] u := runEvents_cons_of_takeEvent _ hfirst
    _ = runEvents [] t := runEvents_cons_of_takeEvent _ hsecond
    _ = .next (t.offer []) := runEvents_nil t

/-- The tiny filter finds an index exactly when the bitmap holds all bits of its mask (R102). -/
theorem tinyTest_eq_mayExist_iff (bm : TinyBitmap) (h : TinyIndex) :
    tinyTest bm h = .mayExist ↔ BitSubset (tinyMask h) bm := by
  rw [tinyTest, BitSubset, BitVec.and_comm]
  split <;> simp [*]

/-- The tiny filter finds the index just recorded in it (R101, R102). -/
theorem tinyTest_tinyUpdate_self (bm : TinyBitmap) (h : TinyIndex) :
    tinyTest (tinyUpdate bm h) h = .mayExist := by
  rw [tinyTest_eq_mayExist_iff, tinyUpdate, BitVec.or_comm]
  exact bitSubset_or _ _

/-- The small filter finds an index exactly when the bits of its four probe bytes are set (R120). -/
theorem smallTest_eq_mayExist_iff (m : Memory) (v : SmallIndex) :
    smallTest m v = .mayExist ↔ ∀ i, probeBit m (probe8 v i) = true := by
  simp [smallTest, Fin.forall_fin_succ, and_assoc]

/-- The four probe bytes of an index made of one byte four times over are that byte (R56). -/
theorem probe8_replicated (a : ProbeByte) (i : Fin 4) : probe8 (a ++ a ++ a ++ a) i = a := by
  revert a i; decide

/-- The small filter finds the index whose four probe bytes are the bit just set (R120, R121). -/
theorem smallTest_smallSetbit_self (m : Memory) (a : ProbeByte) :
    smallTest (smallSetbit m (slot a) (bitpos a)) (a ++ a ++ a ++ a) = .mayExist := by
  refine (smallTest_eq_mayExist_iff _ _).mpr fun i => ?_
  rw [probe8_replicated]
  exact (memBit_smallSetbit m _ _ _ _).mpr (.inr ⟨rfl, rfl⟩)

/-- The response to a filter test that finds its index is the positive one (R59, R60). -/
theorem isMayExist_of_eq_mayExist {f : FilterResult} (h : f = .mayExist) :
    Response.isMayExist ⟨false, zext32 f.code⟩ := by
  rw [h, Response.isMayExist]

/-- Settles O55: `runEvents_append` by induction over the first part of the run, and each filter's test
of what was just recorded. -/
theorem runsTakeEffectInOrder : Obligations.RunsTakeEffectInOrder := by
  unfold Obligations.RunsTakeEffectInOrder
  refine ⟨fun es fs s t h => ⟨runEvents_append fs h, runEvents_received h⟩, fun h s hr => ?_,
    fun a s hr => ?_⟩
  · exact ⟨_, _, runCommands_encode_pair hr (exec_eq _ _) (exec_eq _ _), rfl,
      isMayExist_of_eq_mayExist (tinyTest_tinyUpdate_self s.tbm h)⟩
  · exact ⟨_, _, runCommands_encode_pair hr (exec_eq _ _) (exec_eq _ _), rfl,
      isMayExist_of_eq_mayExist (smallTest_smallSetbit_self s.sbm a)⟩

end Sys2Proof.Machine
end

section
/-! PROOFS. The family 30_encoding.md: which opcodes decode and on which bits of `arg`; a probe as a slice
of its index; what the tests answer; what the assembler's statements expand to; runs of the same commands
in another order; and the statements O9, O10, O13, O14, O56 and O58. -/

namespace Sys2Proof.Machine

/-! ### Probes as slices -/

/-- Shifting right by `k` and masking the low `n` bits takes the slice of `n` bits from bit `k` on. -/
theorem setWidth_ushiftRight_and_mask {w n : Nat} (hn : n ≤ w) (v : BitVec w) (k : Nat) :
    ((v >>> k) &&& BitVec.ofNat w (2 ^ n - 1)).setWidth n = v.extractLsb' k n := by
  refine BitVec.eq_of_getLsbD_eq fun b hb => ?_
  have hbw : b < w := by omega
  simp [hb, hbw, BitVec.getLsbD_ofNat, Nat.testBit_two_pow_sub_one]

/-- `probe4(h, i)` is the slice `h[4i+3:4i]` (R55). -/
theorem probe4_eq_extractLsb' (h : TinyIndex) (i : Fin 4) :
    probe4 h i = h.extractLsb' (4 * i.val) 4 :=
  setWidth_ushiftRight_and_mask (by decide) h _

/-- `probe8(v, i)` is the slice `v[8i+7:8i]` (R56). -/
theorem probe8_eq_extractLsb' (v : SmallIndex) (i : Fin 4) :
    probe8 v i = v.extractLsb' (8 * i.val) 8 :=
  setWidth_ushiftRight_and_mask (by decide) v _

/-- Settles O13: a nibble is a slice, and a slice's value a quotient's remainder. -/
theorem probe4IsNibble : Obligations.Probe4IsNibble := by
  unfold Obligations.Probe4IsNibble
  refine ⟨fun h i => ⟨probe4_eq_extractLsb' h i, ?_⟩, by decide⟩
  rw [probe4_eq_extractLsb', BitVec.extractLsb'_toNat, Nat.shiftRight_eq_div_pow]

/-- Settles O14: a probe byte is a slice, and a slice's value a quotient's remainder. -/
theorem probe8IsByte : Obligations.Probe8IsByte := by
  unfold Obligations.Probe8IsByte
  refine ⟨fun v i => ⟨probe8_eq_extractLsb' v i, ?_⟩, by decide⟩
  rw [probe8_eq_extractLsb', BitVec.extractLsb'_toNat, Nat.shiftRight_eq_div_pow]

/-! ### Which opcodes decode -/

/-- The reserved opcodes are the seven that R61 lists. -/
theorem isReserved_iff (op : Opcode) : Opcode.isReserved op = true ↔
    op = 0x4#4 ∨ op = 0xA#4 ∨ op = 0xB#4 ∨ op = 0xC#4 ∨ op = 0xD#4 ∨ op = 0xE#4 ∨ op = 0xF#4 := by
  simp [Opcode.isReserved]

/-- An opcode is one of the nine that the opcode map defines, or it is reserved (R54, R61). -/
theorem opcode_defined_or_reserved (op : Opcode) :
    (op = 0x0#4 ∨ op = 0x1#4 ∨ op = 0x2#4 ∨ op = 0x3#4 ∨ op = 0x5#4 ∨ op = 0x6#4 ∨ op = 0x7#4 ∨
      op = 0x8#4 ∨ op = 0x9#4) ∨ Opcode.isReserved op = true := by
  revert op; decide

/-- A command with a reserved opcode decodes to no instruction, whatever its `arg` (R61). -/
theorem decode_of_isReserved {c : Command} (h : Opcode.isReserved c.op = true) :
    decode c = .error (.illegalOp c.op) := by
  obtain ⟨op, arg⟩ := c
  rcases (isReserved_iff op).mp h with rfl | rfl | rfl | rfl | rfl | rfl | rfl <;> rfl

/-- What decoding a command gives, by its opcode alone: an instruction for a defined opcode, the cause of
IllegalOp for a reserved one (R61). -/
theorem decode_cases (c : Command) :
    (Opcode.isReserved c.op = false ∧ ∃ i, decode c = .ok i) ∨
    (Opcode.isReserved c.op = true ∧ decode c = .error (.illegalOp c.op)) := by
  obtain hop | hop := opcode_defined_or_reserved c.op
  · obtain ⟨op, arg⟩ := c
    rcases hop with rfl | rfl | rfl | rfl | rfl | rfl | rfl | rfl | rfl <;> exact .inl ⟨rfl, _, rfl⟩
  · exact .inr ⟨hop, decode_of_isReserved hop⟩

/-- A command decodes to an instruction exactly when its opcode is not reserved (R61). -/
theorem decode_isSome (c : Command) : (decode c).toOption.isSome = !Opcode.isReserved c.op := by
  obtain ⟨hop, i, hd⟩ | ⟨hop, hd⟩ := decode_cases c <;> simp [hop, hd, Except.toOption]

/-- A command with a reserved opcode raises IllegalOp, from every state (R151). -/
theorem execCommand_of_isReserved {c : Command} (h : Opcode.isReserved c.op = true) (s : State) :
    execCommand c s = .next (raiseIllegalOp s) := by
  simp only [execCommand, decode_of_isReserved h]

/-- Settles O10: the case split of `decode_cases`, and the count of the opcodes that are not reserved. -/
theorem reservedOpcodesAreTheSevenListed : Obligations.ReservedOpcodesAreTheSevenListed := by
  unfold Obligations.ReservedOpcodesAreTheSevenListed
  refine ⟨fun c => ?_, fun c s hres => ?_, fun w => ?_, fun arg => ?_⟩
  · rw [← isReserved_iff]
    obtain ⟨hop, i, hd⟩ | ⟨hop, hd⟩ := decode_cases c <;> simp [hop, hd]
  · exact ⟨raiseIllegalOp s, execCommand_of_isReserved hres s, raiseIllegalOp_tbm s,
      raiseIllegalOp_sbm s, raiseIllegalOp_rsp s⟩
  · obtain ⟨-, i, hd⟩ | ⟨-, hd⟩ := decode_cases (Command.ofWord w)
    · exact .inl ⟨i, hd⟩
    · exact .inr ⟨_, hd⟩
  · simp only [decode_isSome]
    decide

/-! ### The bits of `arg` that a format names -/

/-- An operand read from the low `n` bits of `arg` does not see the bits above them (R53, R58). -/
theorem extractLsb'_and_mask {n : Nat} (hn : n ≤ 256) (arg : Arg) :
    (arg &&& BitVec.ofNat 256 (2 ^ n - 1)).extractLsb' 0 n = arg.extractLsb' 0 n := by
  refine BitVec.eq_of_getLsbD_eq fun b hb => ?_
  have hbw : b < 256 := by omega
  simp [hb, hbw, BitVec.getLsbD_ofNat, Nat.testBit_two_pow_sub_one]

/-- Decoding reads only the bits of `arg` that the opcode's format names (R58). -/
theorem decode_and_namedArgBits (op : Opcode) (arg : Arg) :
    decode ⟨op, arg &&& namedArgBits op⟩ = decode ⟨op, arg⟩ := by
  obtain hop | hop := opcode_defined_or_reserved op
  · rcases hop with rfl | rfl | rfl | rfl | rfl | rfl | rfl | rfl | rfl
    · rfl
    · exact congrArg (Except.ok ∘ Instr.tset) (extractLsb'_and_mask (n := 16) (by decide) arg)
    · exact congrArg (Except.ok ∘ Instr.ttest) (extractLsb'_and_mask (n := 16) (by decide) arg)
    · rfl
    · exact congrArg (Except.ok ∘ Instr.sbset) (extractLsb'_and_mask (n := 8) (by decide) arg)
    · exact congrArg (Except.ok ∘ Instr.stest) (extractLsb'_and_mask (n := 32) (by decide) arg)
    · exact congrArg (Except.ok ∘ Instr.sbrd) (extractLsb'_and_mask (n := 5) (by decide) arg)
    · exact congrArg (Except.ok ∘ Instr.red16) BitVec.and_allOnes
    · exact congrArg (Except.ok ∘ Instr.red32) BitVec.and_allOnes
  · rw [decode_of_isReserved hop, decode_of_isReserved hop]

/-- Two commands of one opcode whose `arg`s agree on the bits its format names are executed alike (R58). -/
theorem execCommand_congr_namedArgBits {op : Opcode} {a b : Arg}
    (h : a &&& namedArgBits op = b &&& namedArgBits op) (s : State) :
    execCommand ⟨op, a⟩ s = execCommand ⟨op, b⟩ s := by
  have hd : decode ⟨op, a⟩ = decode ⟨op, b⟩ := by
    rw [← decode_and_namedArgBits, h, decode_and_namedArgBits]
  simp only [execCommand, hd]

/-! ### What the assembler emits -/

/-- An instruction's encoding sets no bit of `arg` outside its format (R58). -/
theorem encode_arg_outside_format (i : Instr) :
    (encode i).arg &&& ~~~ namedArgBits (encode i).op = 0 := by
  have hrow : Laws.EncodesItsRow.Statement i := by
    cases i with
    | nop => exact Laws.EncodesItsRow.nop
    | tset h => exact Laws.EncodesItsRow.tset h
    | ttest h => exact Laws.EncodesItsRow.ttest h
    | trd => exact Laws.EncodesItsRow.trd
    | sbset a => exact Laws.EncodesItsRow.sbset a
    | stest v => exact Laws.EncodesItsRow.stest v
    | sbrd off => exact Laws.EncodesItsRow.sbrd off
    | red16 d => exact Laws.EncodesItsRow.red16 d
    | red32 d => exact Laws.EncodesItsRow.red32 d
  exact hrow.2

/-- A statement that assembles gives the events it stands for. -/
theorem AsmStmt.events_of_assemble {a : AsmStmt} {es : List HostEvent} (h : a.assemble = .ok es) :
    es = a.events := by
  unfold AsmStmt.assemble at h
  split at h <;> cases h
  rfl

/-- A statement whose operands fit assembles to the events it stands for (R62). -/
theorem AsmStmt.assemble_of_check {a : AsmStmt} (h : a.check = .ok ()) : a.assemble = .ok a.events := by
  simp only [AsmStmt.assemble, h]

/-- Every command of a statement other than `.RAW` is the encoding of an instruction (R62, R63). -/
theorem AsmStmt.eq_encode_of_mem_events {a : AsmStmt} (hraw : ∀ op arg, a ≠ .raw op arg) {c : Command}
    (hc : .command c ∈ a.events) : ∃ i, c = encode i := by
  cases a with
  | raw op arg => exact absurd rfl (hraw op arg)
  | reset => simp [AsmStmt.events] at hc
  | sset n =>
    simp only [AsmStmt.events, ssetCommands, List.map_cons, List.map_nil, List.mem_cons,
      HostEvent.command.injEq, List.not_mem_nil, or_false] at hc
    obtain rfl | rfl | rfl | rfl := hc <;> exact ⟨_, rfl⟩
  | _ => exact ⟨_, HostEvent.command.inj (List.mem_singleton.mp hc)⟩

/-- Settles O9: decoding reads the named bits alone, and what the assembler emits is encoded. -/
theorem unnamedArgBitsAreIgnored : Obligations.UnnamedArgBitsAreIgnored := by
  unfold Obligations.UnnamedArgBitsAreIgnored
  refine ⟨fun op a b h s => execCommand_congr_namedArgBits h s, fun op a hop => ?_,
    fun l es hraw hasm c hc => ?_, fun s => execCommand_congr_namedArgBits (by decide) s⟩
  · obtain ⟨-, hd⟩ | ⟨hres, -⟩ := decode_cases ⟨op, a⟩
    · exact hd
    · exact absurd (hop.symm.trans hres) Bool.false_ne_true
  · rw [AsmStmt.events_of_assemble hasm] at hc
    obtain ⟨i, rfl⟩ := AsmStmt.eq_encode_of_mem_events hraw hc
    exact encode_arg_outside_format i

/-! ### What the tests answer -/

/-- The tiny filter's test has two results (R102). -/
theorem tinyTest_cases (bm : TinyBitmap) (h : TinyIndex) :
    tinyTest bm h = .notFound ∨ tinyTest bm h = .mayExist := by
  unfold tinyTest
  split
  · exact .inr rfl
  · exact .inl rfl

/-- The small filter's test has two results (R120). -/
theorem smallTest_cases (m : Memory) (v : SmallIndex) :
    smallTest m v = .notFound ∨ smallTest m v = .mayExist := by
  unfold smallTest
  split
  · exact .inr rfl
  · exact .inl rfl

/-- The data of a test's response is 1 or 2 (R60). -/
theorem zext32_code_of_test {f : FilterResult} (h : f = .notFound ∨ f = .mayExist) :
    (zext32 f.code = 1#32 ∨ zext32 f.code = 2#32) ∧ zext32 f.code ≠ 0#32 ∧ zext32 f.code ≠ 3#32 := by
  obtain rfl | rfl := h <;> decide

/-- Settles O56: either test has two results, whose codes are 1 and 2. -/
theorem testsAnswerOneOrTwo : Obligations.TestsAnswerOneOrTwo := by
  unfold Obligations.TestsAnswerOneOrTwo
  refine ⟨⟨rfl, rfl, rfl, rfl⟩, fun ⟨op, arg⟩ s hop => ?_⟩
  obtain rfl | rfl := hop
  · exact ⟨_, _, rfl, rfl, zext32_code_of_test (tinyTest_cases s.tbm _)⟩
  · exact ⟨_, _, rfl, rfl, zext32_code_of_test (smallTest_cases s.sbm _)⟩

/-! ### Runs of commands from any state, and in another order -/

/-- Bit `b` of the tiny bitmap is set exactly when it was in `bm₀` or a TSET among the commands had the
probe `b`; a bit of the small bitmap, exactly when it was in `m₀` or an SBSET among the commands addressed
it; and the canonical form of `m₀` is kept. -/
def GrownBy (bm₀ : TinyBitmap) (m₀ : Memory) (cs : List Command) (bm : TinyBitmap) (m : Memory) : Prop :=
  (∀ b, bm.getLsbD b = true ↔ bm₀.getLsbD b = true ∨
    ∃ c ∈ cs, ∃ h, decode c = .ok (.tset h) ∧ ∃ i, (probe4 h i).toNat = b) ∧
  (∀ (off : ByteOffset) (bit : BitPosition), memBit m off bit = true ↔ memBit m₀ off bit = true ∨
    ∃ c ∈ cs, ∃ a, decode c = .ok (.sbset a) ∧ off = slot a ∧ bit = bitpos a) ∧
  (m₀.wf = true → m.wf = true)

/-- No command executed yet, nothing grown. -/
theorem grownBy_nil (bm : TinyBitmap) (m : Memory) : GrownBy bm m [] bm m :=
  ⟨by simp, by simp, id⟩

/-- One more command executed is one more command by which the bitmaps have grown. -/
theorem execCommand_keeps_grownBy {bm₀ : TinyBitmap} {m₀ : Memory} (done : List Command) (c : Command)
    (s t : State) (h : execCommand c s = .next t) (hq : GrownBy bm₀ m₀ done s.tbm s.sbm) :
    GrownBy bm₀ m₀ (done ++ [c]) t.tbm t.sbm := by
  obtain ⟨htbm, hsbm, hwf⟩ := hq
  refine ⟨fun b => ?_, fun off bit => ?_, fun h₀ => execCommand_sbm_wf h (hwf h₀)⟩
  · simp only [execCommand_tbm_getLsbD h, htbm, List.mem_append, List.mem_singleton, or_and_right,
      exists_or, exists_eq_left, or_assoc]
  · simp only [execCommand_memBit h, hsbm, List.mem_append, List.mem_singleton, or_and_right, exists_or,
      exists_eq_left, or_assoc]

/-- A run of commands has a next state, whose bitmaps are the first ones grown by the commands. -/
theorem runCommands_grownBy (cs : List Command) {s : State} (hr : s.hasReset = true) :
    ∃ t, runCommands cs s = .next t ∧ GrownBy s.tbm s.sbm cs t.tbm t.sbm :=
  runCommands_induct execCommand_keeps_grownBy [] cs hr (grownBy_nil s.tbm s.sbm)

/-- A small bitmap in canonical form reads 0x00 outside the 32 bytes (R30). -/
theorem Memory.lookup_of_wf_of_ge {m : Memory} (h : m.wf = true) {k : Nat} (hk : 32 ≤ k) :
    m.lookup k = Memory.unlistedByte := by
  have haddr := Memory.addr_lt_of_wfFrom h
  clear h
  induction m with
  | nil => rfl
  | cons c m ih =>
    obtain ⟨j, b⟩ := c
    obtain ⟨hj, hm⟩ := List.forall_mem_cons.mp haddr
    have hjk : j ≠ k := by simp only at hj; omega
    rw [Memory.lookup, if_neg hjk, ih hm]

/-- Two small bitmaps in canonical form with the same bits set are equal (R30, R31). -/
theorem Memory.ext_of_memBit {m m' : Memory} (h : m.wf = true) (h' : m'.wf = true)
    (heq : ∀ off bit, memBit m off bit = true ↔ memBit m' off bit = true) : m = m' := by
  refine Memory.ext_of_wfFrom h h' fun k => ?_
  obtain hk | hk := Nat.lt_or_ge k 32
  · have hbyte : memRead m (BitVec.ofNat 5 k) = memRead m' (BitVec.ofNat 5 k) := by
      refine BitVec.eq_of_getLsbD_eq fun b hb => ?_
      have hbit := Bool.eq_iff_iff.mpr (heq (BitVec.ofNat 5 k) (BitVec.ofNat 3 b))
      simpa only [memBit_eq_getLsbD, BitVec.toNat_ofNat, Nat.mod_eq_of_lt hb] using hbit
    simpa only [memRead, BitVec.toNat_ofNat, Nat.mod_eq_of_lt hk] using hbyte
  · rw [Memory.lookup_of_wf_of_ge h hk, Memory.lookup_of_wf_of_ge h' hk]

/-- Bitmaps grown from the same ones by the same commands, in whatever order, are the same. -/
theorem GrownBy.eq_of_perm {bm₀ bm bm' : TinyBitmap} {m₀ m m' : Memory} {cs cs' : List Command}
    (hwf : m₀.wf = true) (hp : cs.Perm cs') (h : GrownBy bm₀ m₀ cs bm m)
    (h' : GrownBy bm₀ m₀ cs' bm' m') : bm = bm' ∧ m = m' := by
  obtain ⟨htbm, hsbm, hm⟩ := h
  obtain ⟨htbm', hsbm', hm'⟩ := h'
  refine ⟨BitVec.eq_of_getLsbD_eq fun b _ => Bool.eq_iff_iff.mpr ?_,
    Memory.ext_of_memBit (hm hwf) (hm' hwf) fun off bit => ?_⟩
  · simp only [htbm, htbm', hp.mem_iff]
  · simp only [hsbm, hsbm', hp.mem_iff]

/-- The order of a run's commands does not matter to the bitmaps it leaves. -/
theorem runCommands_bitmaps_of_perm {cs cs' : List Command} {s : State} (hr : s.hasReset = true)
    (hwf : s.sbm.wf = true) (hp : cs.Perm cs') :
    ∃ t u, runCommands cs s = .next t ∧ runCommands cs' s = .next u ∧ t.bitmaps = u.bitmaps := by
  obtain ⟨t, ht, hgt⟩ := runCommands_grownBy cs hr
  obtain ⟨u, hu, hgu⟩ := runCommands_grownBy cs' hr
  obtain ⟨htbm, hsbm⟩ := hgt.eq_of_perm hwf hp hgu
  exact ⟨t, u, ht, hu, Prod.ext htbm hsbm⟩

/-- After every event that has a next state, a reset has occurred: a command has one only then (R172). -/
theorem takeEvent_hasReset {e : HostEvent} {s t : State} (h : takeEvent e s = .next t) :
    t.hasReset = true := by
  obtain ⟨c, -, hr, hc⟩ | ⟨-, rfl⟩ := takeEvent_cases h
  · exact (execCommand_keeps_host hc).2.trans hr
  · exact resetBlock_hasReset s

/-- A run from a block that has been reset ends in one (R172). -/
theorem runEvents_hasReset {es : List HostEvent} {s t : State} (hr : s.hasReset = true)
    (h : runEvents es s = .next t) : t.hasReset = true := by
  induction es generalizing s with
  | nil =>
    cases h
    exact hr
  | cons e es ih =>
    obtain ⟨u, hu, hrun⟩ := takeEvent_of_runEvents_cons h
    exact ih (takeEvent_hasReset hu) hrun

/-- A run of one instruction's encoding is that instruction. -/
theorem runCommands_encode {i : Instr} {s t : State} (hr : s.hasReset = true) (h : exec i s = .next t) :
    runCommands [encode i] s = .next (t.offer []) := by
  have he : takeEvent (.command (encode i)) s = .next t := by
    rw [takeEvent_command, if_pos hr, execCommand_encode, h]
  exact runEvents_cons_of_takeEvent [] he

/-- A run of commands and an instruction's encoding is the run of the commands and then that
instruction (R38). -/
theorem runCommands_append_encode {cs : List Command} {i : Instr} {s t u : State}
    (hr : s.hasReset = true) (h : runCommands cs s = .next t) (hi : exec i t = .next u) :
    runCommands (cs ++ [encode i]) s = .next (u.offer []) := by
  rw [runCommands, List.map_append, runEvents_append _ h]
  exact runCommands_encode (runEvents_hasReset hr h) hi

/-! ### The pseudo-instructions -/

/-- The SBSET of each probe byte of `v` is among the commands of `SSET v` (R63). -/
theorem encode_sbset_mem_ssetCommands (v : SmallIndex) (i : Fin 4) :
    encode (.sbset (probe8 v i)) ∈ ssetCommands v := by
  revert i
  simp [ssetCommands, Fin.forall_fin_succ]

/-- The small filter finds `v` in a bitmap grown by the commands of `SSET v` (R63). -/
theorem GrownBy.smallTest_of_ssetCommands {bm₀ bm : TinyBitmap} {m₀ m : Memory} {v : SmallIndex}
    (h : GrownBy bm₀ m₀ (ssetCommands v) bm m) : smallTest m v = .mayExist := by
  obtain ⟨-, hsbm, -⟩ := h
  refine (smallTest_eq_mayExist_iff m v).mpr fun i => (hsbm _ _).mpr (.inr ?_)
  exact ⟨_, encode_sbset_mem_ssetCommands v i, _, decode_encode _, rfl, rfl⟩

/-- The value of a word fits in its width. -/
theorem fits_toNat {n : Nat} (v : BitVec n) : fits n v.toNat = true := decide_eq_true v.isLt

/-- `SSET` of a 32-bit index assembles to the SBSETs of its probe bytes (R63). -/
theorem sset_assemble (v : SmallIndex) :
    (AsmStmt.sset v.toNat).assemble = .ok ((ssetCommands v).map .command) := by
  rw [AsmStmt.assemble_of_check (a := .sset v.toNat) (if_pos (fits_toNat v)), AsmStmt.events,
    BitVec.ofNat_toNat, BitVec.setWidth_eq]

/-- The index with all four nibbles `b` is `b` four times over (R63). -/
theorem allNibbles_eq (b : BitVec 4) : allNibbles b = b ++ b ++ b ++ b := by
  revert b; decide

/-- The events of `TBIT b`: the one TSET of `b` four times over (R63). -/
theorem tbit_events (b : BitVec 4) :
    (AsmStmt.tbit b.toNat).events = [.command (encode (.tset (b ++ b ++ b ++ b)))] := by
  rw [AsmStmt.events, BitVec.ofNat_toNat, BitVec.setWidth_eq, allNibbles_eq]

/-- `TBIT` of a 4-bit number assembles to its one TSET (R63). -/
theorem tbit_assemble (b : BitVec 4) :
    (AsmStmt.tbit b.toNat).assemble = .ok [.command (encode (.tset (b ++ b ++ b ++ b)))] := by
  rw [AsmStmt.assemble_of_check (a := .tbit b.toNat) (if_pos (fits_toNat b)), tbit_events]

/-- The mask of an index with all four nibbles `b` is the bit `b` alone (R100). -/
theorem tinyMask_replicated (b : BitVec 4) : tinyMask (b ++ b ++ b ++ b) = 1#16 <<< b.toNat := by
  revert b; decide

/-- The expectation of a 32-bit value is accepted (R62). -/
theorem Expectation.check_value (n : RspData) : (Expectation.value n.toNat).check = .ok () :=
  if_pos (fits_toNat n)

/-- The response expected by a 32-bit value is that value without error (R62). -/
theorem Expectation.response_value (n : RspData) : (Expectation.value n.toNat).response = ⟨false, n⟩ := by
  rw [Expectation.response, BitVec.ofNat_toNat, BitVec.setWidth_eq]

/-- A 32-bit expectation on a statement that assembles is its one response's, and is refused where the
statement does not bring exactly one (R63). -/
theorem ScriptLine.assemble_value {a : AsmStmt} {es : List HostEvent} (h : a.assemble = .ok es)
    (n : RspData) : ScriptLine.assemble ⟨some a, some (.value n.toNat)⟩ =
      if a.responses = 1 then .ok (es, some ⟨false, n⟩) else .error .expectationNotAllowed := by
  rw [← Expectation.response_value]
  simp only [ScriptLine.assemble, h, Expectation.check_value]
  rfl

/-- Settles O58: the bitmaps a run leaves are grown by its commands in whatever order, and the
assembler's equations for SSET and TBIT. -/
theorem pseudoInstructionsExpand : Obligations.PseudoInstructionsExpand := by
  unfold Obligations.PseudoInstructionsExpand
  refine ⟨sset_assemble, fun v s hr => ?_, fun v cs s hr hwf hp => runCommands_bitmaps_of_perm hr hwf hp,
    fun b => ⟨tbit_assemble b, fun s hr => ?_⟩, fun b n => ScriptLine.assemble_value (tbit_assemble b) n,
    fun v n => ScriptLine.assemble_value (sset_assemble v) n⟩
  · obtain ⟨t, hrun, hgrown⟩ := runCommands_grownBy (ssetCommands v) hr
    exact ⟨_, _, runCommands_append_encode hr hrun (exec_eq _ _), rfl,
      isMayExist_of_eq_mayExist hgrown.smallTest_of_ssetCommands⟩
  · rw [tbit_events, ← tinyMask_replicated]
    exact ⟨_, runCommands_encode hr (exec_eq _ _), rfl⟩

end Sys2Proof.Machine
end

section
/-! PROOFS. The family 40_hash_reducers.md: folds of which one term counts; the bytes of a value and of a
64-bit word in either byte order; both reducers as the XOR of the digest's words; what a digest with one
non-zero byte reduces to; the response of a reducer command; and the statements O17 to O21. -/

namespace Sys2Proof.Machine

/-! ### Folds in which one term counts -/

section Folds
variable {α : Type} {op : α → α → α} {e : α} [Std.LawfulIdentity op e] {f : Nat → α} {n : Nat}

/-- Folding terms that are all the identity gives the identity. -/
theorem foldl_range_eq_identity (h : ∀ j < n, f j = e) :
    (List.range n).foldl (fun x j => op x (f j)) e = e := by
  induction n with
  | zero => rfl
  | succ n ih =>
    rw [List.range_succ, List.foldl_concat, ih fun j hj => h j (by omega), h n (by omega)]
    exact Std.LawfulRightIdentity.right_id e

/-- Folding terms of which all but one are the identity gives that one. -/
theorem foldl_range_eq_single {i : Nat} (hi : i < n) (h : ∀ j < n, j ≠ i → f j = e) :
    (List.range n).foldl (fun x j => op x (f j)) e = f i := by
  induction n with
  | zero => omega
  | succ n ih =>
    rw [List.range_succ, List.foldl_concat]
    obtain rfl | hne := eq_or_ne i n
    · rw [foldl_range_eq_identity fun j hj => h j (by omega) (by omega)]
      exact Std.LawfulLeftIdentity.left_id _
    · rw [ih (by omega) fun j hj => h j (by omega), h n (by omega) hne.symm]
      exact Std.LawfulRightIdentity.right_id _

omit [Std.LawfulIdentity op e] in
/-- A map that respects the operation may be applied to each term of a fold. -/
theorem map_foldl_range {β : Type} {op' : β → β → β} (φ : α → β) (e' : β) (he : φ e = e')
    (hop : ∀ x y, φ (op x y) = op' (φ x) (φ y)) :
    φ ((List.range n).foldl (fun x j => op x (f j)) e) =
      (List.range n).foldl (fun x j => op' x (φ (f j))) e' :=
  he ▸ (List.foldl_hom φ fun x j => (hop x (f j)).symm).symm

end Folds

/-- The XOR of the first `n` values of `f`, the form in which the reducers are defined (R81). -/
def xorFold {w : Nat} (n : Nat) (f : Nat → BitVec w) : BitVec w :=
  (List.range n).foldl (fun x j => x ^^^ f j) 0

/-- An XOR depends only on the values that it folds. -/
theorem xorFold_congr {w n : Nat} {f g : Nat → BitVec w} (h : ∀ j < n, f j = g j) :
    xorFold n f = xorFold n g :=
  List.foldl_ext _ _ _ fun x j hj => congrArg (x ^^^ ·) (h j (List.mem_range.mp hj))

/-- An XOR of zeros is zero. -/
theorem xorFold_eq_zero {w n : Nat} {f : Nat → BitVec w} (h : ∀ j < n, f j = 0) : xorFold n f = 0 :=
  foldl_range_eq_identity (op := (· ^^^ ·)) (e := 0#w) h

/-- An XOR of which all values but one are zero is that one. -/
theorem xorFold_eq_single {w n i : Nat} {f : Nat → BitVec w} (hi : i < n)
    (h : ∀ j < n, j ≠ i → f j = 0) : xorFold n f = f i :=
  foldl_range_eq_single (op := (· ^^^ ·)) (e := 0#w) hi h

/-- A slice of an XOR is the XOR of the slices. -/
theorem extractLsb'_xorFold {w : Nat} (n : Nat) (f : Nat → BitVec w) (start len : Nat) :
    (xorFold n f).extractLsb' start len = xorFold n fun j => (f j).extractLsb' start len :=
  map_foldl_range (BitVec.extractLsb' start len) 0 BitVec.extractLsb'_zero fun _ _ => BitVec.extractLsb'_xor

/-- A bit of an XOR is the XOR of the bits. -/
theorem getLsbD_xorFold {w : Nat} (n : Nat) (f : Nat → BitVec w) (b : Nat) :
    (xorFold n f).getLsbD b = (List.range n).foldl (fun x j => x ^^ (f j).getLsbD b) false :=
  map_foldl_range (BitVec.getLsbD · b) false BitVec.getLsbD_zero fun _ _ => BitVec.getLsbD_xor

/-! ### Bytes of a value -/

/-- A slice of a slice is a slice. -/
theorem extractLsb'_extractLsb' {w start len start' len' : Nat} (x : BitVec w)
    (h : start' + len' ≤ len) :
    (x.extractLsb' start len).extractLsb' start' len' = x.extractLsb' (start + start') len' := by
  refine BitVec.eq_of_getLsbD_eq fun b hb => ?_
  have hlen : start' + b < len := by omega
  simp [hb, hlen, Nat.add_assoc]

/-- Two values of `n` bytes with the same bytes are equal. -/
theorem eq_of_bytes {w n : Nat} (hw : w = 8 * n) {x y : BitVec w}
    (h : ∀ m < n, x.extractLsb' (8 * m) 8 = y.extractLsb' (8 * m) 8) : x = y := by
  refine BitVec.eq_of_getLsbD_eq fun b hb => ?_
  have hbit := congrArg (·.getLsbD (b % 8)) (h (b / 8) (by omega))
  simpa [Nat.mod_lt, Nat.div_add_mod] using hbit

/-- A value that has the byte `c` at place `i` and zeros elsewhere, byte by byte. -/
theorem extractLsb'_shiftedByte {w i : Nat} (hi : 8 * i + 8 ≤ w) (c : Byte) (m : Nat) :
    (c.setWidth w <<< (8 * i)).extractLsb' (8 * m) 8 = if i = m then c else 0 := by
  refine BitVec.eq_of_getLsbD_eq fun b hb => ?_
  obtain rfl | hne := eq_or_ne i m
  · have hbw : 8 * i + b < w := by omega
    simp [hb, hbw]
  · have hout : 8 * m + b < 8 * i ∨ 8 ≤ 8 * m + b - 8 * i := by omega
    obtain hlow | hhigh := hout
    · simp [hne, hlow]
    · simp [hne, BitVec.getLsbD_of_ge c _ hhigh]

/-- Two bytes put together by shift and OR are one after the other (R81). -/
theorem setWidth_or_shiftLeft_eq_append (hi lo : Byte) :
    lo.setWidth 16 ||| (hi.setWidth 16 <<< 8) = hi ++ lo := by
  refine BitVec.eq_of_getLsbD_eq fun b hb => ?_
  rw [BitVec.getLsbD_append]
  split
  · simp [*]
  · rw [BitVec.getLsbD_or, BitVec.getLsbD_setWidth, BitVec.getLsbD_of_ge lo b (by omega)]
    simp [*]

/-! ### The words of a digest -/

/-- `w16(j)` is byte `2j+1` above byte `2j` (R81). -/
theorem word16_eq_append (d : Digest) (j : Nat) :
    word16 d j = dbyte d (2 * j + 1) ++ dbyte d (2 * j) :=
  setWidth_or_shiftLeft_eq_append _ _

/-- `w16(j)` is the slice `arg[16j+15:16j]` (R57, R81). -/
theorem word16_eq_extractLsb' (d : Digest) (j : Nat) : word16 d j = d.extractLsb' (16 * j) 16 := by
  have h : 8 * (2 * j + 1) = 8 * (2 * j) + 8 := by omega
  rw [word16_eq_append, dbyte, dbyte, BitVec.extractLsb'_append_extractLsb'_eq_extractLsb' h,
    ← Nat.mul_assoc]

/-- The place in a 64-bit word of its byte `i`, in a byte order (R82). -/
def bytePlace : ByteOrder → Nat → Nat
  | .little, i => i
  | .big, i => 7 - i

/-- A byte is shifted to its place (R82). -/
theorem byteShift_eq (o : ByteOrder) (i : Nat) : byteShift o i = 8 * bytePlace o i := by
  cases o <;> rfl

/-- A byte's place is one of the eight. -/
theorem bytePlace_lt (o : ByteOrder) {i : Nat} (hi : i < 8) : bytePlace o i < 8 := by
  cases o with
  | little => exact hi
  | big => exact Nat.sub_lt_succ 7 i

/-- The byte at a place is found as the place of a byte is. -/
theorem bytePlace_eq_iff (o : ByteOrder) {i m : Nat} (hi : i < 8) (hm : m < 8) :
    bytePlace o i = m ↔ i = bytePlace o m := by
  cases o with
  | little => rfl
  | big =>
    simp only [bytePlace]
    omega

/-- Byte `m` of `b(k)` is the byte of the digest whose place is `m` (R82). -/
theorem word64_byte (o : ByteOrder) (d : Digest) (k : Nat) {m : Nat} (hm : m < 8) :
    (word64 o d k).extractLsb' (8 * m) 8 = dbyte d (8 * k + bytePlace o m) := by
  have hbyte : ∀ i < 8, ((dbyte d (8 * k + i)).setWidth 64 <<< byteShift o i).extractLsb' (8 * m) 8 =
      if i = bytePlace o m then dbyte d (8 * k + i) else 0 := by
    intro i hi
    have hplace := bytePlace_lt o hi
    rw [byteShift_eq, extractLsb'_shiftedByte (by omega)]
    simp only [bytePlace_eq_iff o hi hm]
  calc (word64 o d k).extractLsb' (8 * m) 8
      = _ := map_foldl_range (op' := (· ||| ·)) (BitVec.extractLsb' (8 * m) 8) 0#8
        BitVec.extractLsb'_zero fun _ _ => BitVec.extractLsb'_or
    _ = _ := foldl_range_eq_single (op := (· ||| ·)) (e := 0#8) (bytePlace_lt o hm) fun i hi hne =>
        (hbyte i hi).trans (if_neg hne)
    _ = dbyte d (8 * k + bytePlace o m) := (hbyte _ (bytePlace_lt o hm)).trans (if_pos rfl)

/-- `b(k)`, least significant byte first, is the slice `arg[64k+63:64k]` (R82). -/
theorem word64_little_eq_extractLsb' (d : Digest) (k : Nat) :
    word64 .little d k = d.extractLsb' (64 * k) 64 := by
  refine eq_of_bytes (n := 8) rfl fun m hm => ?_
  rw [word64_byte .little d k hm, extractLsb'_extractLsb' d (by omega), dbyte, bytePlace, Nat.mul_add,
    ← Nat.mul_assoc]

/-- The two byte orders give words with reversed bytes (R82). -/
theorem word64_big_byte (d : Digest) (k : Nat) {m : Nat} (hm : m < 8) :
    (word64 .big d k).extractLsb' (8 * m) 8 = (word64 .little d k).extractLsb' (8 * (7 - m)) 8 := by
  rw [word64_byte .big d k hm, word64_byte .little d k (by omega), bytePlace, bytePlace]

/-- Eight bytes of the digest in a row, the last one at the top, are a slice of it. -/
theorem append_eight_dbytes (d : Digest) (i : Nat) :
    dbyte d (i + 7) ++ dbyte d (i + 6) ++ dbyte d (i + 5) ++ dbyte d (i + 4) ++
      dbyte d (i + 3) ++ dbyte d (i + 2) ++ dbyte d (i + 1) ++ dbyte d i =
    d.extractLsb' (8 * i) 64 := by
  simp (disch := omega) only [dbyte, BitVec.extractLsb'_append_extractLsb'_eq_extractLsb']

/-- A 32-bit value is its four bytes, the last one at the top. -/
theorem append_four_bytes (x : BitVec 32) :
    x.extractLsb' (8 * 3) 8 ++ x.extractLsb' (8 * 2) 8 ++ x.extractLsb' (8 * 1) 8 ++
      x.extractLsb' (8 * 0) 8 = x := by
  simp (disch := omega) only [BitVec.extractLsb'_append_extractLsb'_eq_extractLsb']
  exact BitVec.extractLsb'_eq_self

/-! ### The reducers as the XOR of the digest's words -/

/-- `reduce16(d)` is the XOR of the sixteen 16-bit slices of the digest (R81). -/
theorem reduce16_eq_xorFold (d : Digest) :
    reduce16 d = xorFold 16 fun j => d.extractLsb' (16 * j) 16 :=
  xorFold_congr fun j _ => word16_eq_extractLsb' d j

/-- The grouping of the four 64-bit words does not matter (R82). -/
theorem reduce32_eq_fold_of_words (d : Digest) :
    let x := word64 .little d 0 ^^^ word64 .little d 1 ^^^ word64 .little d 2 ^^^ word64 .little d 3
    reduce32 d = x.extractLsb' 32 32 ^^^ x.extractLsb' 0 32 := by
  have hgroup : word64 .little d 0 ^^^ word64 .little d 2 ^^^ (word64 .little d 1 ^^^ word64 .little d 3) =
      word64 .little d 0 ^^^ word64 .little d 1 ^^^ word64 .little d 2 ^^^ word64 .little d 3 := by
    ac_rfl
  exact congrArg (fun x => x.extractLsb' 32 32 ^^^ x.extractLsb' 0 32) hgroup

/-- `reduce32(d)` is the XOR of the eight 32-bit slices of the digest (R82). -/
theorem reduce32_eq_xorFold (d : Digest) :
    reduce32 d = xorFold 8 fun j => d.extractLsb' (32 * j) 32 := by
  rw [reduce32_eq_fold_of_words]
  simp (disch := omega) only [word64_little_eq_extractLsb', BitVec.extractLsb'_xor,
    extractLsb'_extractLsb']
  simp only [xorFold, List.range_succ, List.range_zero, List.nil_append, List.foldl_append,
    List.foldl_cons, List.foldl_nil, BitVec.ofNat_eq_ofNat, BitVec.zero_xor, Nat.reduceMul, Nat.reduceAdd]
  ac_rfl

/-- A byte of an XOR of words of `p` bytes is the XOR of every `p`-th byte of the digest (R81). -/
theorem extractLsb'_xorFold_words (d : Digest) (n : Nat) {w p m : Nat} (hw : w = 8 * p) (hm : m < p) :
    (xorFold n fun j => d.extractLsb' (w * j) w).extractLsb' (8 * m) 8 =
      xorFold n fun j => dbyte d (p * j + m) := by
  subst hw
  rw [extractLsb'_xorFold]
  refine xorFold_congr fun j _ => ?_
  rw [extractLsb'_extractLsb' d (by omega), dbyte, Nat.mul_add, Nat.mul_assoc]

/-- Byte `m` of `reduce16(d)` is the XOR of the bytes whose number is `m` modulo 2 (R81). -/
theorem reduce16_byte (d : Digest) {m : Nat} (hm : m < 2) :
    (reduce16 d).extractLsb' (8 * m) 8 = xorFold 16 fun j => dbyte d (2 * j + m) := by
  rw [reduce16_eq_xorFold]
  exact extractLsb'_xorFold_words d 16 rfl hm

/-- Byte `m` of `reduce32(d)` is the XOR of the bytes whose number is `m` modulo 4 (R82). -/
theorem reduce32_byte (d : Digest) {m : Nat} (hm : m < 4) :
    (reduce32 d).extractLsb' (8 * m) 8 = xorFold 8 fun j => dbyte d (4 * j + m) := by
  rw [reduce32_eq_xorFold]
  exact extractLsb'_xorFold_words d 8 rfl hm

/-- Bit `n` of `reduce16(d)` is the XOR of the bits whose number is `n` modulo 16 (R81). -/
theorem reduce16_getLsbD (d : Digest) {n : Nat} (hn : n < 16) :
    (reduce16 d).getLsbD n =
      (List.range 16).foldl (fun x j => x ^^ d.getLsbD (n + 16 * j)) false := by
  simp only [reduce16_eq_xorFold, getLsbD_xorFold, BitVec.getLsbD_extractLsb', hn, decide_true,
    Bool.true_and, Nat.add_comm n]

/-- The other byte order of the words reverses the bytes of the result (R82). -/
theorem reduce32With_big_byte (d : Digest) {m : Nat} (hm : m < 4) :
    (reduce32With .big d).extractLsb' (8 * m) 8 = (reduce32 d).extractLsb' (8 * (3 - m)) 8 := by
  have hlow : 8 * (7 - m) = 32 + 8 * (3 - m) := by omega
  have hhigh : 8 * (7 - (4 + m)) = 0 + 8 * (3 - m) := by omega
  have hbig : 32 + 8 * m = 8 * (4 + m) := by omega
  simp (disch := omega) only [reduce32, Config.reduce32ByteOrder, reduce32With, BitVec.extractLsb'_xor,
    extractLsb'_extractLsb']
  simp (disch := omega) only [hbig, Nat.zero_add (8 * m), word64_big_byte, hlow, hhigh]
  exact BitVec.xor_comm _ _

/-- Settles O17: `reduce16` as the XOR of slices, of which bytes and bits are slices again. -/
theorem reduce16IsXorOfSixteenWords : Obligations.Reduce16IsXorOfSixteenWords := by
  unfold Obligations.Reduce16IsXorOfSixteenWords
  refine ⟨fun d j _ => word16_eq_append d j, fun d js hp => ?_, fun d => ⟨?_, ?_⟩,
    fun d n hn => reduce16_getLsbD d hn⟩
  · have : RightCommutative fun x j => x ^^^ word16 d j := ⟨fun x i j => by ac_rfl⟩
    exact (hp.foldl_eq 0).symm
  · exact reduce16_byte d (m := 0) (by decide)
  · exact reduce16_byte d (m := 1) (by decide)

/-- Settles O18: the words as slices, and the bytes of `reduce32With .big` in the other order. -/
theorem reduce32FoldsFourWords : Obligations.Reduce32FoldsFourWords := by
  unfold Obligations.Reduce32FoldsFourWords
  refine ⟨fun d k _ => ⟨?_, word64_little_eq_extractLsb' d k⟩, reduce32_eq_fold_of_words, fun d => ?_,
    by decide⟩
  · rw [append_eight_dbytes, word64_little_eq_extractLsb', ← Nat.mul_assoc]
  · rw [← append_four_bytes (reduce32With .big d), reduce32With_big_byte d (m := 3) (by decide),
      reduce32With_big_byte d (m := 2) (by decide), reduce32With_big_byte d (m := 1) (by decide),
      reduce32With_big_byte d (m := 0) (by decide)]

/-! ### Digests with one non-zero byte -/

/-- The XOR of the words of `p` bytes of a digest whose only non-zero byte is `d[i] = c`: that byte at
its place in its word (R83, R84). -/
theorem xorFold_words_shiftedByte {w p n i : Nat} (hw : w = 8 * p) (c : Byte) (hi : i < p * n)
    (hn : p * n ≤ 32) :
    (xorFold n fun j => (c.setWidth 256 <<< (8 * i)).extractLsb' (w * j) w) =
      c.setWidth w <<< (8 * (i % p)) := by
  have hp : 0 < p := Nat.pos_of_mul_pos_right (Nat.zero_lt_of_lt hi)
  have hmod : i % p < p := Nat.mod_lt i hp
  have hbyte (j : Nat) : dbyte (c.setWidth 256 <<< (8 * i)) j = if i = j then c else 0 :=
    extractLsb'_shiftedByte (by omega) c j
  refine eq_of_bytes hw fun m hm => ?_
  rw [extractLsb'_xorFold_words _ n hw hm, extractLsb'_shiftedByte (by omega)]
  simp only [hbyte]
  split
  next heq =>
    have hplace : i = p * (i / p) + m := heq ▸ (Nat.div_add_mod i p).symm
    refine (xorFold_eq_single (Nat.div_lt_of_lt_mul hi) fun j _ hne => if_neg ?_).trans (if_pos hplace)
    rintro rfl
    exact hne (by rw [Nat.mul_add_div hp, Nat.div_eq_of_lt hm, Nat.add_zero])
  next hne =>
    refine xorFold_eq_zero fun j _ => if_neg ?_
    rintro rfl
    exact hne (by rw [Nat.mul_add_mod, Nat.mod_eq_of_lt hm])

/-- The digest whose only non-zero byte is `d[i] = c` reduces to that byte at its place (R83). -/
theorem reduce16_shiftedByte (c : Byte) {i : Nat} (hi : i < 32) :
    reduce16 (c.setWidth 256 <<< (8 * i)) = c.setWidth 16 <<< (8 * (i % 2)) :=
  (reduce16_eq_xorFold _).trans (xorFold_words_shiftedByte (p := 2) rfl c hi (by decide))

/-- The digest whose only non-zero byte is `d[i] = c` reduces to that byte at its place (R84). -/
theorem reduce32_shiftedByte (c : Byte) {i : Nat} (hi : i < 32) :
    reduce32 (c.setWidth 256 <<< (8 * i)) = c.setWidth 32 <<< (8 * (i % 4)) :=
  (reduce32_eq_xorFold _).trans (xorFold_words_shiftedByte (p := 4) rfl c hi (by decide))

/-- The bytes 0 to 31 cancel in `reduce16` (R84). -/
theorem reduce16_of_bytes_rising {d : Digest} (h : ∀ i < 32, dbyte d i = BitVec.ofNat 8 i) :
    reduce16 d = 0 := by
  refine eq_of_bytes (n := 2) rfl fun m hm => ?_
  rw [reduce16_byte d hm, xorFold_congr fun j hj => h (2 * j + m) (by omega)]
  revert m
  decide

/-- The bytes 0 to 31 cancel in `reduce32` (R84). -/
theorem reduce32_of_bytes_rising {d : Digest} (h : ∀ i < 32, dbyte d i = BitVec.ofNat 8 i) :
    reduce32 d = 0 := by
  refine eq_of_bytes (n := 4) rfl fun m hm => ?_
  rw [reduce32_byte d hm, xorFold_congr fun j hj => h (4 * j + m) (by omega)]
  revert m
  decide

/-- Widening to 32 bits adds zeros above (R59). -/
theorem zext32_extractLsb'_high (v : BitVec 16) : (zext32 v).extractLsb' 16 16 = 0#16 := by
  refine BitVec.eq_of_getLsbD_eq fun b _ => ?_
  simp [zext32]

/-- Settles O19: the arm of `exec`, and the digest's words of which at most one is not zero. -/
theorem red16AnswersReduce16 : Obligations.Red16AnswersReduce16 := by
  unfold Obligations.Red16AnswersReduce16
  refine ⟨fun arg => rfl, fun d s => rfl, fun d => zext32_extractLsb'_high _, by decide, by decide,
    fun c i hi => ?_, by decide⟩
  rw [reduce16_shiftedByte c hi]
  obtain hmod | hmod := Nat.mod_two_eq_zero_or_one i
  · rw [hmod, if_pos rfl, Nat.mul_zero, BitVec.shiftLeft_zero]
  · rw [hmod, if_neg Nat.one_ne_zero]

/-- Settles O20: the arm of `exec`, and the digest's words of which at most one is not zero. -/
theorem red32AnswersReduce32 : Obligations.Red32AnswersReduce32 := by
  unfold Obligations.Red32AnswersReduce32
  refine ⟨fun arg => rfl, fun d s => ?_, by decide, by decide, fun c i hi => reduce32_shiftedByte c hi,
    fun d h => ⟨reduce32_of_bytes_rising h, reduce16_of_bytes_rising h⟩, by decide⟩
  have hzext : zext32 (reduce32 d) = reduce32 d := BitVec.setWidth_eq _
  rw [exec_eq, instrResponse, hzext]
  rfl

/-! ### The commands -/

/-- A reducer command's response is fixed by the command, whatever state it finds (R83, R84). -/
theorem execCommand_reducer {op : Opcode} (hop : op = 0x8#4 ∨ op = 0x9#4) (arg : Arg) :
    ∃ r, ∀ s, execCommand ⟨op, arg⟩ s = .next (s.give r) := by
  obtain rfl | rfl := hop <;> exact ⟨_, fun s => rfl⟩

/-- Every event has a next state in a block that has been reset (R150, R172). -/
theorem takeEvent_next (e : HostEvent) {s : State} (hr : s.hasReset = true) :
    ∃ t, takeEvent e s = .next t := by
  cases e with
  | command c =>
    rw [takeEvent_command, if_pos hr]
    exact execCommand_next c s
  | reset | resetWithCommand c => exact ⟨resetBlock s, rfl⟩

/-- Every run of events completes from a block that has been reset (R150, R172). -/
theorem runEvents_next (es : List HostEvent) {s : State} (hr : s.hasReset = true) :
    ∃ t, runEvents es s = .next t := by
  induction es generalizing s with
  | nil => exact ⟨_, runEvents_nil s⟩
  | cons e es ih =>
    obtain ⟨u, hu⟩ := takeEvent_next e hr
    rw [runEvents_cons_of_takeEvent es hu]
    exact ih (takeEvent_hasReset hu)

/-- Settles O21: every run between completes, and the response is the command's alone. -/
theorem equalDigestsReduceAlike : Obligations.EqualDigestsReduceAlike := by
  unfold Obligations.EqualDigestsReduceAlike
  intro op arg es s hop hr
  obtain ⟨r, hexec⟩ := execCommand_reducer hop arg
  have htake {s : State} (hr : s.hasReset = true) :
      takeEvent (.command ⟨op, arg⟩) s = .next (s.give r) := by
    rw [takeEvent_command, if_pos hr, hexec]
  have hgive : (s.give r).hasReset = true := hr
  obtain ⟨u, hrun⟩ := runEvents_next es hgive
  exact ⟨_, u, _, r, htake hr, hrun, htake (runEvents_hasReset hgive hrun), rfl, rfl⟩

end Sys2Proof.Machine
end

section
/-! PROOFS. The family 41_tiny_filter.md: how many bits a mask has; a subset of bits, bit by bit; what the
tiny filter's update and test do, probe by probe; what the bitmap holds after TSETs; and the statements
O26 to O33. -/

namespace Sys2Proof.Machine

/-! ### The mask of an index -/

/-- The number of 1 bits of a word is the number of its bit positions that are set. -/
theorem popcount_eq_card {n : Nat} (v : BitVec n) :
    popcount v = ((Finset.range n).filter (v.getLsbD · = true)).card := by
  rw [popcount, List.countP_eq_length_filter]
  simp only [Finset.card, Finset.filter, Finset.range, Multiset.range, Multiset.filter_coe,
    Multiset.coe_card, Bool.decide_eq_true]

/-- A mask has as many bits as the index has different probes (R100). -/
theorem popcount_tinyMask (h : TinyIndex) :
    popcount (tinyMask h) = (Finset.univ.image (probe4 h)).card := by
  have hbits : (Finset.range 16).filter ((tinyMask h).getLsbD · = true) =
      (Finset.univ.image (probe4 h)).image BitVec.toNat := by
    ext b
    have hlt : (∃ i, (probe4 h i).toNat = b) → b < 16 := by
      rintro ⟨i, rfl⟩
      exact (probe4 h i).isLt
    simpa [tinyMask_getLsbD] using hlt
  rw [popcount_eq_card, hbits, Finset.card_image_of_injective _ fun _ _ => BitVec.eq_of_toNat_eq]

/-- A mask has a bit (R100). -/
theorem one_le_popcount_tinyMask (h : TinyIndex) : 1 ≤ popcount (tinyMask h) := by
  rw [popcount_tinyMask, Nat.succ_le_iff, Finset.card_pos]
  exact Finset.univ_nonempty.image _

/-- A mask has one bit exactly when the four probes are equal (R100). -/
theorem popcount_tinyMask_eq_one_iff (h : TinyIndex) :
    popcount (tinyMask h) = 1 ↔ ∀ i j, probe4 h i = probe4 h j := by
  have hle : popcount (tinyMask h) = 1 ↔ popcount (tinyMask h) ≤ 1 :=
    ⟨Nat.le_of_eq, (Nat.le_antisymm · (one_le_popcount_tinyMask h))⟩
  rw [hle, popcount_tinyMask, Finset.card_le_one]
  simp

/-- A mask has four bits exactly when the four probes all differ (R100). -/
theorem popcount_tinyMask_eq_four_iff (h : TinyIndex) :
    popcount (tinyMask h) = 4 ↔ ∀ i j, probe4 h i = probe4 h j → i = j := by
  rw [popcount_tinyMask]
  exact Finset.card_image_iff.trans (by simp [Set.InjOn])

/-- A mask has the bit of each value that is a probe, and no other (R100). -/
theorem tinyMask_getLsbD_toNat (h : TinyIndex) (p : BitVec 4) :
    (tinyMask h).getLsbD p.toNat = true ↔ ∃ i, probe4 h i = p := by
  simp only [tinyMask_getLsbD, BitVec.toNat_inj]

/-- Two indices with the same set of probes have the same mask (R100). -/
theorem tinyMask_congr {h k : TinyIndex}
    (hp : ∀ p, (∃ i, probe4 h i = p) ↔ (∃ i, probe4 k i = p)) : tinyMask h = tinyMask k := by
  refine BitVec.eq_of_getLsbD_eq fun b hb => Bool.eq_iff_iff.mpr ?_
  have hbit := hp (BitVec.ofNat 4 b)
  rwa [← tinyMask_getLsbD_toNat, ← tinyMask_getLsbD_toNat, BitVec.toNat_ofNat, Nat.mod_eq_of_lt hb]
    at hbit

/-- Settles O26: a mask's bits are counted as the different probes of its index. -/
theorem tinyMaskHasTheProbeBits : Obligations.TinyMaskHasTheProbeBits := by
  unfold Obligations.TinyMaskHasTheProbeBits
  refine ⟨tinyMask_getLsbD, fun h => ⟨one_le_popcount_tinyMask h, ?_, popcount_tinyMask_eq_one_iff h,
    popcount_tinyMask_eq_four_iff h⟩, fun h k => tinyMask_congr, tinyMask_replicated,
    by decide, by decide⟩
  rw [popcount_tinyMask]
  exact Finset.card_image_le

/-! ### The update and the test, probe by probe -/

/-- A word is a subset of another exactly when each of its bits is set in the other. -/
theorem bitSubset_iff {n : Nat} (x y : BitVec n) :
    BitSubset x y ↔ ∀ b, x.getLsbD b = true → y.getLsbD b = true := by
  constructor
  · intro h b hx
    rw [← h, BitVec.getLsbD_and, Bool.and_eq_true] at hx
    exact hx.2
  · intro h
    refine BitVec.eq_of_getLsbD_eq fun b _ => ?_
    simpa using h b

/-- A bit is set after an update when it was set before or is a probe of the index (R101). -/
theorem tinyUpdate_getLsbD (bm : TinyBitmap) (h : TinyIndex) (b : Nat) :
    (tinyUpdate bm h).getLsbD b = true ↔ bm.getLsbD b = true ∨ ∃ i, (probe4 h i).toNat = b := by
  rw [tinyUpdate, BitVec.getLsbD_or, Bool.or_eq_true, tinyMask_getLsbD]

/-- An update with an index whose bits are all set changes nothing (R101). -/
theorem tinyUpdate_of_bitSubset {bm : TinyBitmap} {h : TinyIndex} (hsub : BitSubset (tinyMask h) bm) :
    tinyUpdate bm h = bm := by
  refine BitVec.eq_of_getLsbD_eq fun b _ => Bool.eq_iff_iff.mpr ?_
  rw [tinyUpdate, BitVec.getLsbD_or, Bool.or_eq_true]
  exact or_iff_left_of_imp ((bitSubset_iff _ _).mp hsub b)

/-- The tiny filter finds an index exactly when its four probe bits are set (R102). -/
theorem tinyTest_eq_mayExist_iff_probes (bm : TinyBitmap) (h : TinyIndex) :
    tinyTest bm h = .mayExist ↔ ∀ i, bm.getLsbD (probe4 h i).toNat = true := by
  simp [tinyTest_eq_mayExist_iff, bitSubset_iff, tinyMask_getLsbD]

/-- The tiny filter does not find an index exactly when one of its probe bits is clear (R102). -/
theorem tinyTest_eq_notFound_iff (bm : TinyBitmap) (h : TinyIndex) :
    tinyTest bm h = .notFound ↔ ∃ i, bm.getLsbD (probe4 h i).toNat = false := by
  have hnot : tinyTest bm h = .notFound ↔ ¬ tinyTest bm h = .mayExist := by
    obtain ht | ht := tinyTest_cases bm h <;> simp [ht]
  rw [hnot, tinyTest_eq_mayExist_iff_probes]
  simp

/-- Settles O27: the bits of an update, and the test's two results by the probe bits. -/
theorem tinyUpdateAndTestByProbe : Obligations.TinyUpdateAndTestByProbe := by
  unfold Obligations.TinyUpdateAndTestByProbe
  refine ⟨tinyUpdate_getLsbD, fun bm h => ⟨tinyTest_eq_notFound_iff bm h,
    tinyTest_eq_mayExist_iff_probes bm h, ?_⟩⟩
  obtain ht | ht := tinyTest_cases bm h <;> simp [ht]

/-! ### TSET, TTEST and TRD -/

/-- `1 << p` is not zero (R100). -/
theorem one_shiftLeft_ne_zero (p : BitVec 4) : 1#16 <<< p ≠ 0#16 := by
  intro hzero
  have hbit : (1#16 <<< p).getLsbD p.toNat = true := (one_shiftLeft_getLsbD p _).mpr rfl
  simp [hzero] at hbit

/-- An update of the empty bitmap is not empty: every mask has a bit (R100). -/
theorem tinyUpdate_zero_ne_zero (h : TinyIndex) : tinyUpdate 0x0000#16 h ≠ 0x0000#16 := by
  intro hzero
  have hbit := (tinyUpdate_getLsbD 0x0000#16 h (probe4 h 0).toNat).mpr (.inr ⟨0, rfl⟩)
  simp [hzero] at hbit

/-- Settles O28: the arm of `exec`, and the update's corner cases. -/
theorem tsetRecordsTheProbes : Obligations.TsetRecordsTheProbes := by
  unfold Obligations.TsetRecordsTheProbes
  refine ⟨fun arg => rfl, fun h s => ⟨tinyUpdate s.tbm h, exec_eq (.tset h) s, tinyUpdate_getLsbD s.tbm h,
    tinyUpdate_of_bitSubset, fun hfull => ?_⟩, fun b s => ?_, fun h => ?_, fun s hempty => ?_⟩
  · rw [hfull]
    exact tinyUpdate_of_bitSubset BitVec.and_allOnes
  · exact ⟨_, exec_eq _ s, congrArg (s.tbm ||| ·) (tinyMask_replicated b)⟩
  · exact ⟨State.reset, _, exec_eq _ _, tinyUpdate_zero_ne_zero h⟩
  · exact ⟨_, exec_eq _ s, (congrArg (tinyUpdate · 0xCCA1#16) hempty).trans (by decide)⟩

/-- A test answers 2 exactly when its result is MAY_EXIST (R60). -/
theorem zext32_code_eq_two_iff (f : FilterResult) : zext32 f.code = 2#32 ↔ f = .mayExist := by
  cases f <;> decide

/-- A test answers 1 exactly when its result is NOT_FOUND (R60). -/
theorem zext32_code_eq_one_iff (f : FilterResult) : zext32 f.code = 1#32 ↔ f = .notFound := by
  cases f <;> decide

/-- The four probes of an index made of one nibble four times over are that nibble (R55). -/
theorem probe4_replicated (b : BitVec 4) (i : Fin 4) : probe4 (b ++ b ++ b ++ b) i = b := by
  revert b i; decide

/-- The test of an index made of one nibble is the test of that nibble's bit (R102). -/
theorem tinyTest_replicated (bm : TinyBitmap) (b : BitVec 4) :
    tinyTest bm (b ++ b ++ b ++ b) = if bm.getLsbD b.toNat then .mayExist else .notFound := by
  cases hb : bm.getLsbD b.toNat
  · simpa [tinyTest_eq_notFound_iff, probe4_replicated] using hb
  · simpa [tinyTest_eq_mayExist_iff_probes, probe4_replicated] using hb

/-- The empty tiny filter finds no index (R108). -/
theorem tinyTest_zero (h : TinyIndex) : tinyTest 0x0000#16 h = .notFound :=
  (tinyTest_eq_notFound_iff _ h).mpr ⟨0, BitVec.getLsbD_zero⟩

/-- The full tiny filter finds every index (R104). -/
theorem tinyTest_allOnes (h : TinyIndex) : tinyTest 0xFFFF#16 h = .mayExist :=
  (tinyTest_eq_mayExist_iff _ h).mpr BitVec.and_allOnes

/-- TTEST leaves the code of the test's result on the response port (R104). -/
theorem exec_ttest_rsp {h : TinyIndex} {s : State} {f : FilterResult} (hf : tinyTest s.tbm h = f) :
    ∃ t, exec (.ttest h) s = .next t ∧ t.rsp = some ⟨false, zext32 f.code⟩ :=
  ⟨_, exec_eq _ s, hf ▸ rfl⟩

/-- Settles O29: the arm of `exec`, and the codes of the test's two results. -/
theorem ttestAnswersByProbe : Obligations.TtestAnswersByProbe := by
  unfold Obligations.TtestAnswersByProbe
  refine ⟨fun arg => rfl, fun h s => ⟨zext32 (tinyTest s.tbm h).code, exec_eq (.ttest h) s, ?_⟩,
    fun b s => ?_, fun s hs => ⟨exec_ttest_rsp (f := .notFound) ?_, exec_ttest_rsp (f := .mayExist) ?_⟩⟩
  · rw [zext32_code_eq_two_iff, zext32_code_eq_one_iff]
    exact ⟨tinyTest_eq_mayExist_iff_probes s.tbm h, tinyTest_eq_notFound_iff s.tbm h,
      fun hempty => hempty ▸ tinyTest_zero h, fun hfull => hfull ▸ tinyTest_allOnes h,
      tinyTest_cases s.tbm h⟩
  · obtain ⟨t, ht, hrsp⟩ := exec_ttest_rsp (tinyTest_replicated s.tbm b)
    refine ⟨t, ht, hrsp.trans ?_⟩
    split <;> rfl
  · rw [hs]
    decide
  · rw [hs]
    decide

/-! ### The bitmap after TSETs, and what a command after a run answers -/

/-- The OR of the masks of some indices (R106). -/
def recordedMasks (hs : List TinyIndex) : TinyBitmap := hs.foldr (fun h bm => tinyMask h ||| bm) 0

/-- The bits of the OR of some masks are the probes of their indices (R106). -/
theorem recordedMasks_getLsbD (hs : List TinyIndex) (b : Nat) :
    (recordedMasks hs).getLsbD b = true ↔ ∃ h ∈ hs, ∃ i, (probe4 h i).toNat = b := by
  induction hs with
  | nil => simp [recordedMasks]
  | cons h hs ih =>
    rw [recordedMasks, List.foldr_cons, ← recordedMasks, BitVec.getLsbD_or, Bool.or_eq_true,
      tinyMask_getLsbD, ih]
    simp

/-- The OR of some masks depends on the set of their indices alone (R106). -/
theorem recordedMasks_congr {hs ks : List TinyIndex} (hmem : ∀ h, h ∈ hs ↔ h ∈ ks) :
    recordedMasks hs = recordedMasks ks := by
  refine BitVec.eq_of_getLsbD_eq fun b _ => Bool.eq_iff_iff.mpr ?_
  simp only [recordedMasks_getLsbD, hmem]

/-- After a reset and some TSETs, `TBM` is the OR of the masks of their indices (R106). -/
theorem runEvents_reset_tsets (hs : List TinyIndex) (s : State) :
    ∃ t, runEvents (.reset :: hs.map fun h => .command (encode (.tset h))) s = .next t ∧
      t.tbm = recordedMasks hs := by
  obtain ⟨t, hrun, hbits⟩ := tbmBitMeansProbeRecorded (hs.map fun h => encode (.tset h)) s
  rw [List.map_map] at hrun
  refine ⟨t, hrun, BitVec.eq_of_getLsbD_eq fun b hb => Bool.eq_iff_iff.mpr ?_⟩
  simp [hbits b hb, recordedMasks_getLsbD, decode_encode]

/-- A run of a reset, some events and an instruction's encoding is the run of the others and then that
instruction (R38, R172). -/
theorem runEvents_reset_append_encode {es : List HostEvent} {i : Instr} {s t u : State}
    (h : runEvents (.reset :: es) s = .next t) (hi : exec i t = .next u) :
    runEvents (.reset :: (es ++ [.command (encode i)])) s = .next (u.offer []) := by
  have hr : t.hasReset = true :=
    runEvents_hasReset (resetBlock_hasReset s) ((runEvents_reset_cons es s).symm.trans h)
  exact (runEvents_append _ h).trans (runCommands_encode hr hi)

/-- After a reset and some TSETs, TRD answers the OR of the masks of their indices (R105, R106). -/
theorem runEvents_reset_tsets_trd (hs : List TinyIndex) (s : State) :
    ∃ t, runEvents (.reset :: ((hs.map fun h => .command (encode (.tset h))) ++
        [.command (encode .trd)])) s = .next t ∧ t.rsp = some ⟨false, zext32 (recordedMasks hs)⟩ := by
  obtain ⟨t, hrun, htbm⟩ := runEvents_reset_tsets hs s
  exact ⟨_, runEvents_reset_append_encode hrun (exec_eq .trd t), htbm ▸ rfl⟩

/-- Settles O30: the arm of `exec`, and TRD after a reset and TSETs of no index and of two. -/
theorem trdAnswersTbm : Obligations.TrdAnswersTbm := by
  unfold Obligations.TrdAnswersTbm
  refine ⟨fun arg => rfl, exec_eq .trd, runEvents_reset_tsets_trd [], fun s => ?_⟩
  obtain ⟨t, hrun, hrsp⟩ := runEvents_reset_tsets_trd [0xCCA1#16, 0x230C#16] s
  exact ⟨t, hrun, hrsp.trans (by decide)⟩

/-- Settles O31: the bits of `TBM` after a reset and TSETs are those of the masks' OR. -/
theorem tbmIsOrOfRecordedMasks : Obligations.TbmIsOrOfRecordedMasks := by
  unfold Obligations.TbmIsOrOfRecordedMasks
  refine ⟨fun bm h k => ⟨?_, ?_⟩, runEvents_reset_tsets, fun hs ks s t u hmem ht hu => ?_⟩
  · simp only [tinyUpdate, BitVec.or_assoc, BitVec.or_comm (tinyMask h)]
  · simp only [tinyUpdate, BitVec.or_assoc, BitVec.or_self]
  · obtain ⟨t', ht', htbm⟩ := runEvents_reset_tsets hs s
    obtain ⟨u', hu', hubm⟩ := runEvents_reset_tsets ks s
    cases ht.symm.trans ht'
    cases hu.symm.trans hu'
    rw [htbm, hubm, recordedMasks_congr hmem]

/-- The response to a filter test that does not find its index is the negative one (R59, R60). -/
theorem isNotFound_of_eq_notFound {f : FilterResult} (h : f = .notFound) :
    Response.isNotFound ⟨false, zext32 f.code⟩ := by
  rw [h, Response.isNotFound]

/-- The tiny filter finds every index that a TSET among the commands recorded (R107). -/
theorem GrownBy.tinyTest_of_mem {bm₀ bm : TinyBitmap} {m₀ m : Memory} {cs : List Command}
    {h : TinyIndex} (hg : GrownBy bm₀ m₀ cs bm m) (hmem : encode (.tset h) ∈ cs) :
    tinyTest bm h = .mayExist := by
  obtain ⟨htbm, -⟩ := hg
  exact (tinyTest_eq_mayExist_iff_probes bm h).mpr fun i =>
    (htbm _).mpr (.inr ⟨_, hmem, h, decode_encode _, i, rfl⟩)

/-- After a reset and commands of which none is a TSET, `TBM` is still empty (R108). -/
theorem runEvents_reset_no_tset {cs : List Command} (hop : ∀ c ∈ cs, c.op ≠ 0x1#4) (s : State) :
    ∃ t, runEvents (.reset :: cs.map .command) s = .next t ∧ t.tbm = 0x0000#16 := by
  obtain ⟨t, hrun, hbits⟩ := tbmBitMeansProbeRecorded cs s
  refine ⟨t, hrun, BitVec.eq_of_getLsbD_eq fun b hb => ?_⟩
  rw [BitVec.getLsbD_zero, ← Bool.not_eq_true, hbits b hb]
  rintro ⟨c, hc, k, hd, -⟩
  exact hop c hc ((decode_eq_tset_iff c k).mp hd).1

/-- When a run from a reset on leaves the tiny filter empty, TTEST after it answers NOT_FOUND (R108). -/
theorem runEvents_reset_ttest_notFound {es : List HostEvent} {s t : State} (h : TinyIndex)
    (hrun : runEvents (.reset :: es) s = .next t) (htbm : t.tbm = 0x0000#16) :
    ∃ u r, runEvents (.reset :: (es ++ [.command (encode (.ttest h))])) s = .next u ∧
      u.rsp = some r ∧ r.isNotFound := by
  have hfind : tinyTest t.tbm h = .notFound := htbm ▸ tinyTest_zero h
  exact ⟨_, _, runEvents_reset_append_encode hrun (exec_eq _ t), rfl, isNotFound_of_eq_notFound hfind⟩

/-- Settles O32: a run of commands grows the bitmap by every TSET in it, and a reset empties it. -/
theorem noFalseNegativeInTinyFilter : Obligations.NoFalseNegativeInTinyFilter := by
  unfold Obligations.NoFalseNegativeInTinyFilter
  refine ⟨tinyTest_tinyUpdate_self, fun h cs s hr => ?_, fun h s hr => ?_⟩
  · obtain ⟨t, hrun, hgrown⟩ := runCommands_grownBy (encode (.tset h) :: cs) hr
    exact ⟨_, _, runCommands_append_encode hr hrun (exec_eq _ _), rfl,
      isMayExist_of_eq_mayExist (hgrown.tinyTest_of_mem List.mem_cons_self)⟩
  · obtain ⟨t, htset⟩ := takeEvent_next (.command (encode (.tset h))) hr
    rw [runEvents_cons_of_takeEvent _ htset]
    exact runEvents_reset_ttest_notFound h (runEvents_reset_cons [] t) rfl

/-- Settles O33: a run of commands without a TSET leaves the bitmap of the reset block empty. -/
theorem emptyTinyFilterFindsNothing : Obligations.EmptyTinyFilterFindsNothing := by
  unfold Obligations.EmptyTinyFilterFindsNothing
  refine ⟨tinyTest_zero, fun bm h i hclear => (tinyTest_eq_notFound_iff bm h).mpr ⟨i, hclear⟩,
    fun h i => one_shiftLeft_ne_zero _, fun h cs s hop => ?_⟩
  obtain ⟨t, hrun, htbm⟩ := runEvents_reset_no_tset hop s
  exact runEvents_reset_ttest_notFound h hrun htbm

end Sys2Proof.Machine
end

section
/-! PROOFS. The family 42_small_filter.md: the small filter's bits as bits of bytes and of the vector view;
what its test finds; the byte that setting a bit leaves; its three commands directly after a reset; and the
statements O39 to O43. -/

namespace Sys2Proof.Machine

/-! ### The bit of a probe byte in the byte view and in the vector view -/

/-- The bit a probe byte addresses is bit `bitpos(a)` of byte `slot(a)` (R32, R120). -/
theorem probeBit_eq_getLsbD (m : Memory) (a : ProbeByte) :
    probeBit m a = (memRead m (slot a)).getLsbD (bitpos a).toNat := memBit_eq_getLsbD m _ _

/-- A probe byte's offset as a number: its value divided by 8 (R32). -/
theorem slot_eq_ofNat (a : ProbeByte) : slot a = BitVec.ofNat 5 (a.toNat / 8) := by
  rw [← slot_toNat, BitVec.ofNat_toNat, BitVec.setWidth_eq]

/-- The bit a probe byte addresses is bit `a & 7` of byte `a >> 3` (R32, R120). -/
theorem probeBit_eq_byte_getLsbD (m : Memory) (a : ProbeByte) :
    probeBit m a = (memRead m (BitVec.ofNat 5 (a.toNat / 8))).getLsbD (a.toNat % 8) := by
  rw [probeBit_eq_getLsbD, bitpos_toNat, ← slot_eq_ofNat]

/-- Bits `8k+7` to `8k` of the vector view are byte `k` (R33). -/
theorem sbmVector_byte (m : Memory) {k : Nat} (hk : k < 32) :
    (sbmVector m).extractLsb' (8 * k) 8 = memRead m (BitVec.ofNat 5 k) := by
  have hbyte : ∀ i < 32, ((memRead m (BitVec.ofNat 5 i)).setWidth 256 <<< (8 * i)).extractLsb' (8 * k) 8 =
      if i = k then memRead m (BitVec.ofNat 5 i) else 0 :=
    fun i hi => extractLsb'_shiftedByte (by omega) _ k
  calc (sbmVector m).extractLsb' (8 * k) 8
      = _ := map_foldl_range (op' := (· ||| ·)) (BitVec.extractLsb' (8 * k) 8) 0#8
        BitVec.extractLsb'_zero fun _ _ => BitVec.extractLsb'_or
    _ = _ := foldl_range_eq_single (op := (· ||| ·)) (e := 0#8) hk fun i hi hne =>
        (hbyte i hi).trans (if_neg hne)
    _ = memRead m (BitVec.ofNat 5 k) := (hbyte k hk).trans (if_pos rfl)

/-- The bit a probe byte addresses is the bit of the vector view whose number it is (R33, R120). -/
theorem sbmVector_getLsbD (m : Memory) (a : ProbeByte) :
    (sbmVector m).getLsbD a.toNat = probeBit m a := by
  have hslot : a.toNat / 8 < 32 := by omega
  have hpos : a.toNat % 8 < 8 := Nat.mod_lt _ (by decide)
  rw [probeBit_eq_byte_getLsbD, ← sbmVector_byte m hslot, BitVec.getLsbD_extractLsb', Nat.div_add_mod,
    decide_eq_true hpos, Bool.true_and]

/-! ### What the test finds -/

/-- The test's result: MAY_EXIST when the bits of all four probe bytes are set, NOT_FOUND otherwise (R120). -/
theorem smallTest_eq_ite (m : Memory) (v : SmallIndex) :
    smallTest m v = if ∀ i, probeBit m (probe8 v i) = true then .mayExist else .notFound := by
  split
  next hall => exact (smallTest_eq_mayExist_iff m v).mpr hall
  next hnot => exact (smallTest_cases m v).resolve_right (mt (smallTest_eq_mayExist_iff m v).mp hnot)

/-- The small filter does not find an index exactly when one of its four addressed bits is clear (R120). -/
theorem smallTest_eq_notFound_iff (m : Memory) (v : SmallIndex) :
    smallTest m v = .notFound ↔ ∃ i, probeBit m (probe8 v i) = false := by
  simp [smallTest_eq_ite]

/-- The order of the probe bytes does not matter to the test (R120). -/
theorem smallTest_of_bijective (m : Memory) {v w : SmallIndex} {f : Fin 4 → Fin 4}
    (hf : Function.Bijective f) (h : ∀ i, probe8 w i = probe8 v (f i)) :
    smallTest m w = smallTest m v := by
  have hall : (∀ i, probeBit m (probe8 v i) = true) ↔ ∀ i, probeBit m (probe8 v (f i)) = true :=
    hf.surjective.forall
  simp only [smallTest_eq_ite, h, hall]

/-- Settles O39: the test's two results by the addressed bits, in the byte view and the vector view. -/
theorem smallTestExaminesFourBits : Obligations.SmallTestExaminesFourBits := by
  unfold Obligations.SmallTestExaminesFourBits
  refine ⟨fun m v => ⟨?_, ?_, ?_⟩, fun m v w f hf h => smallTest_of_bijective m hf h⟩
  · simp only [smallTest_eq_mayExist_iff, probeBit_eq_byte_getLsbD]
  · simp only [smallTest_eq_notFound_iff, sbmVector_getLsbD]
  · obtain ht | ht := smallTest_cases m v <;> simp [ht]

/-! ### The byte that setting a bit leaves -/

/-- `1 << bit` has bit `bit` set and no other, among all bit numbers (R31). -/
theorem bitMask_getLsbD_iff (bit : BitPosition) (b : Nat) :
    (bitMask bit).getLsbD b = true ↔ b = bit.toNat := by
  have hbit : bit.toNat < 8 := bit.isLt
  rw [bitMask, BitVec.shiftLeft_eq', ← BitVec.twoPow_eq, BitVec.getLsbD_twoPow]
  simp [hbit, eq_comm]

/-- The new byte has the bits of the old one and the bit that is set (R121). -/
theorem smallSetByte_getLsbD (m : Memory) (off : ByteOffset) (bit : BitPosition) (b : Nat) :
    (smallSetByte m off bit).getLsbD b = true ↔ (memRead m off).getLsbD b = true ∨ b = bit.toNat := by
  rw [smallSetByte, BitVec.getLsbD_or, Bool.or_eq_true, bitMask_getLsbD_iff]

/-- Setting a bit that is set leaves the byte as it was (R123). -/
theorem smallSetByte_of_memBit {m : Memory} {off : ByteOffset} {bit : BitPosition}
    (h : memBit m off bit = true) : smallSetByte m off bit = memRead m off := by
  refine BitVec.eq_of_getLsbD_eq fun b _ => Bool.eq_iff_iff.mpr ?_
  rw [smallSetByte_getLsbD]
  refine or_iff_left_of_imp ?_
  rintro rfl
  rwa [← memBit_eq_getLsbD]

/-- `small_setbit` leaves the new byte at its offset (R121). -/
theorem memRead_smallSetbit_self (m : Memory) (off : ByteOffset) (bit : BitPosition) :
    memRead (smallSetbit m off bit) off = smallSetByte m off bit :=
  memRead_memWrite_self m off (smallSetByte_ne_unlisted m off bit)

/-- `small_setbit` leaves the bytes at other offsets as they were (R121). -/
theorem memRead_smallSetbit_other (m : Memory) {off k : ByteOffset} (bit : BitPosition) (h : k ≠ off) :
    memRead (smallSetbit m off bit) k = memRead m k :=
  memRead_memWrite_other m _ h

/-- Settles O40: the byte at the offset and at another one, and the bits as `memBit_smallSetbit` has them. -/
theorem smallSetbitOrsOneBit : Obligations.SmallSetbitOrsOneBit := by
  unfold Obligations.SmallSetbitOrsOneBit
  refine fun m off bit => ⟨fun k => ?_, fun k b => memBit_smallSetbit m off k bit b⟩
  split
  next heq =>
    rw [heq, memRead_smallSetbit_self]
    rfl
  next hne => exact memRead_smallSetbit_other m bit hne

/-! ### STEST -/

/-- A small bitmap of which all bytes are 0x00 holds no index (R122). -/
theorem smallTest_of_bytes_zero {m : Memory} (h : ∀ k, memRead m k = 0x00#8) (v : SmallIndex) :
    smallTest m v = .notFound := by
  refine (smallTest_eq_notFound_iff m v).mpr ⟨0, ?_⟩
  rw [probeBit_eq_getLsbD, h, BitVec.getLsbD_zero]

/-- A small bitmap of which all bytes are 0xFF holds every index (R122). -/
theorem smallTest_of_bytes_full {m : Memory} (h : ∀ k, memRead m k = 0xFF#8) (v : SmallIndex) :
    smallTest m v = .mayExist := by
  have hfull : ∀ bit : BitPosition, (0xFF#8).getLsbD bit.toNat = true := by decide
  refine (smallTest_eq_mayExist_iff m v).mpr fun i => ?_
  rw [probeBit_eq_getLsbD, h, hfull]

/-- The test of an index made of one byte is the test of that byte's bit (R122). -/
theorem smallTest_replicated (m : Memory) (a : ProbeByte) :
    smallTest m (a ++ a ++ a ++ a) = if probeBit m a then .mayExist else .notFound := by
  simp only [smallTest_eq_ite, probe8_replicated, forall_const]

/-- STEST leaves the code of the test's result on the response port (R122). -/
theorem exec_stest_rsp {v : SmallIndex} {s : State} {f : FilterResult} (hf : smallTest s.sbm v = f) :
    ∃ t, exec (.stest v) s = .next t ∧ t.rsp = some ⟨false, zext32 f.code⟩ :=
  ⟨_, exec_eq _ s, hf ▸ rfl⟩

/-- STEST of an index made of one byte answers by that byte's bit (R122). -/
theorem exec_stest_replicated_rsp (a : ProbeByte) (s : State) :
    ∃ t, exec (.stest (a ++ a ++ a ++ a)) s = .next t ∧
      t.rsp = some ⟨false, if probeBit s.sbm a then 2#32 else 1#32⟩ := by
  obtain ⟨t, ht, hrsp⟩ := exec_stest_rsp (smallTest_replicated s.sbm a)
  refine ⟨t, ht, hrsp.trans ?_⟩
  split <;> rfl

/-- Settles O41: the arm of `exec`, the codes of the test's two results, and its corner cases. -/
theorem stestAnswersByProbeByte : Obligations.StestAnswersByProbeByte := by
  unfold Obligations.StestAnswersByProbeByte
  refine ⟨fun arg => rfl, fun v s => ⟨zext32 (smallTest s.sbm v).code, exec_eq (.stest v) s, ?_⟩,
    exec_stest_replicated_rsp, fun s => ?_, fun s => ?_, by decide,
    fun s hs => ⟨exec_stest_rsp (f := .mayExist) ?_, exec_stest_rsp (f := .notFound) ?_⟩⟩
  · simp only [zext32_code_eq_two_iff, zext32_code_eq_one_iff, ← probeBit_eq_getLsbD]
    exact ⟨smallTest_eq_mayExist_iff s.sbm v, smallTest_cases s.sbm v,
      fun hempty => smallTest_of_bytes_zero hempty v, fun hfull => smallTest_of_bytes_full hfull v⟩
  · have hrev : smallTest s.sbm 0xA90208CE#32 = smallTest s.sbm 0xCE0802A9#32 :=
      smallTest_of_bijective s.sbm Fin.rev_bijective (by decide)
    obtain ⟨t, ht, hrsp⟩ := exec_stest_rsp hrev
    obtain ⟨u, hu, hrsp'⟩ := exec_stest_rsp (s := s) (v := 0xCE0802A9#32) rfl
    exact ⟨t, u, ht, hu, hrsp.trans hrsp'.symm⟩
  · have hbit : probeBit s.sbm 0x00#8 = (memRead s.sbm 0#5).getLsbD 0 := probeBit_eq_getLsbD _ _
    exact hbit ▸ exec_stest_replicated_rsp 0x00#8 s
  · rw [hs]
    decide
  · rw [hs]
    decide

/-! ### SBSET and SBRD, and runs of them directly after a reset -/

/-- One SBSET in a run of its own sets its bit and answers the new byte (R123). -/
theorem runEvents_sbset (a : ProbeByte) {s : State} (hr : s.hasReset = true) :
    ∃ t, runEvents [.command (encode (.sbset a))] s = .next t ∧
      t.sbm = smallSetbit s.sbm (slot a) (bitpos a) ∧
      t.rsp = some ⟨false, zext32 (smallSetByte s.sbm (slot a) (bitpos a))⟩ :=
  ⟨_, runCommands_encode hr (exec_eq _ s), rfl, rfl⟩

/-- One SBSET directly after a reset sets its bit in the empty small bitmap (R123). -/
theorem runEvents_reset_sbset (a : ProbeByte) (s : State) :
    ∃ t, runEvents [.reset, .command (encode (.sbset a))] s = .next t ∧
      t.sbm = smallSetbit [] (slot a) (bitpos a) ∧
      t.rsp = some ⟨false, zext32 (smallSetByte [] (slot a) (bitpos a))⟩ := by
  rw [runEvents_reset_cons]
  exact runEvents_sbset a (resetBlock_hasReset s)

/-- Settles O42: the arm of `exec`, the new byte bit by bit, and `execCommand_memBit` for the last clause. -/
theorem sbsetSetsOneBit : Obligations.SbsetSetsOneBit := by
  unfold Obligations.SbsetSetsOneBit
  refine ⟨fun arg => rfl, fun a s => ⟨smallSetbit s.sbm (slot a) (bitpos a),
    smallSetByte s.sbm (slot a) (bitpos a), exec_eq (.sbset a) s, ?_⟩, by decide, fun s => ?_,
    fun c s t k b h hset => (execCommand_memBit h k b).mpr (.inl hset)⟩
  · rw [← slot_eq_extractLsb', ← bitpos_eq_extractLsb']
    refine ⟨rfl, fun off => ⟨?_, memRead_smallSetbit_other _ _⟩, smallSetByte_getLsbD _ _ _,
      smallSetByte_of_memBit⟩
    rintro rfl
    exact memRead_smallSetbit_self _ _ _
  · obtain ⟨t, ht, hsbm, hfirst⟩ := runEvents_reset_sbset 0xA9#8 s
    have hr : t.hasReset = true :=
      runEvents_hasReset (resetBlock_hasReset s) ((runEvents_reset_cons _ s).symm.trans ht)
    obtain ⟨u, hu, -, hsecond⟩ := runEvents_sbset (probeOf 21#5 0#3) hr
    rw [hsbm] at hsecond
    refine ⟨t, u, ht, hfirst.trans (by decide), ?_, hu, hsecond.trans (by decide)⟩
    rw [hsbm]
    decide

/-- After a reset and one SBSET, SBRD answers the byte of the bitmap that holds the one bit set (R123,
R124). -/
theorem runEvents_reset_sbset_sbrd (a : ProbeByte) (off : ByteOffset) (s : State) :
    ∃ t, runEvents [.reset, .command (encode (.sbset a)), .command (encode (.sbrd off))] s = .next t ∧
      t.rsp = some ⟨false, zext32 (memRead (smallSetbit [] (slot a) (bitpos a)) off)⟩ := by
  obtain ⟨t, hrun, hsbm, -⟩ := runEvents_reset_sbset a s
  exact ⟨_, runEvents_reset_append_encode hrun (exec_eq _ t), hsbm ▸ rfl⟩

/-- SBRD directly after a reset answers 0 (R124). -/
theorem runEvents_reset_sbrd (off : ByteOffset) (s : State) :
    ∃ t, runEvents [.reset, .command (encode (.sbrd off))] s = .next t ∧
      t.rsp = some ⟨false, 0x00#32⟩ := by
  rw [runEvents_reset_cons]
  exact ⟨_, runCommands_encode (resetBlock_hasReset s) (exec_eq _ _), rfl⟩

/-- Settles O43: the arm of `exec`, and SBRD directly after a reset and after one SBSET. -/
theorem sbrdAnswersTheByte : Obligations.SbrdAnswersTheByte := by
  unfold Obligations.SbrdAnswersTheByte
  refine ⟨fun arg => rfl, fun off => exec_eq (.sbrd off), runEvents_reset_sbrd, fun s => ?_⟩
  obtain ⟨t, ht, hset⟩ := runEvents_reset_sbset_sbrd 0xA9#8 21#5 s
  obtain ⟨u, hu, hclear⟩ := runEvents_reset_sbset_sbrd 0xA9#8 20#5 s
  exact ⟨t, u, ht, hset.trans (by decide), hu, hclear.trans (by decide)⟩

end Sys2Proof.Machine
end

section
/-! PROOFS. The family 43_control.md: the statement O49. -/

namespace Sys2Proof.Machine

/-- Settles O49: opcode 0 decodes whatever `arg` is, and `exec_eq` for the instruction that changes
neither bitmap and whose response is the constant 0. -/
theorem nopAnswersZero : Obligations.NopAnswersZero := by
  unfold Obligations.NopAnswersZero
  exact ⟨fun arg => rfl, exec_eq .nop⟩

end Sys2Proof.Machine
end

section
/-! PROOFS. The family 60_exceptions.md: the statements O50 and O51. A defined command completes because
`decode_cases` gives it an instruction and `exec_eq` says what that does; a reserved one leaves the bitmaps,
which are all that the next command reads. -/

namespace Sys2Proof.Machine

/-! ### What an executed command answers, and what it reads -/

/-- No instruction answers with the error bit set (R150). -/
theorem instrResponse_err (i : Instr) (s : State) : (instrResponse i s).err = false := by
  cases i <;> rfl

/-- A command that decodes to an instruction does what `exec_eq` says of it (R141). -/
theorem execCommand_of_decode {c : Command} {i : Instr} (hd : decode c = .ok i) (s : State) :
    execCommand c s = .next (State.give { s with tbm := instrTbm i s, sbm := instrSbm i s }
      (instrResponse i s)) := by
  simp only [execCommand, hd, exec_eq]

/-- An instruction reads nothing of the state but the two bitmaps (R22, R141). -/
theorem instr_congr_bitmaps (i : Instr) {s s' : State} (h : s.bitmaps = s'.bitmaps) :
    instrTbm i s = instrTbm i s' ∧ instrSbm i s = instrSbm i s' ∧
      instrResponse i s = instrResponse i s' := by
  obtain ⟨htbm, hsbm⟩ := Prod.mk.inj h
  cases i <;> simp [instrTbm, instrSbm, instrResponse, htbm, hsbm]

/-- A command's effect and response depend on the bitmaps alone, a reserved opcode's included (R22, R141,
R151). -/
theorem execCommand_congr_bitmaps (c : Command) {s s' : State} (h : s.bitmaps = s'.bitmaps) :
    ∃ t t' r, execCommand c s = .next t ∧ execCommand c s' = .next t' ∧
      t.bitmaps = t'.bitmaps ∧ t.rsp = some r ∧ t'.rsp = some r := by
  obtain ⟨-, i, hd⟩ | ⟨hres, -⟩ := decode_cases c
  · obtain ⟨htbm, hsbm, hresp⟩ := instr_congr_bitmaps i h
    exact ⟨_, _, instrResponse i s, execCommand_of_decode hd s, execCommand_of_decode hd s',
      Prod.ext htbm hsbm, rfl, congrArg some hresp.symm⟩
  · exact ⟨_, _, ⟨true, 0⟩, execCommand_of_isReserved hres s, execCommand_of_isReserved hres s',
      h, rfl, rfl⟩

/-! ### O50 and O51 -/

/-- Settles O50: a command that is not reserved decodes to an instruction, whose one
response has no error. -/
theorem definedCommandsNeverFail : Obligations.DefinedCommandsNeverFail := by
  unfold Obligations.DefinedCommandsNeverFail
  intro c s hwf
  obtain ⟨-, i, hd⟩ | ⟨hres, -⟩ := decode_cases c
  · have hresp : instrResponse i s = ⟨false, (instrResponse i s).data⟩ := by
      rw [← instrResponse_err i s]
    exact ⟨_, (instrResponse i s).data, execCommand_of_decode hd s, congrArg some hresp,
      congrArg (s.received ++ [·]) hresp⟩
  · simp [Command.wellFormed, hres] at hwf

/-- Settles O51: a reserved opcode's next state is `raiseIllegalOp`, which keeps the bitmaps, and these are
all that the next command depends on. -/
theorem illegalOpLeavesBlockIntact : Obligations.IllegalOpLeavesBlockIntact := by
  unfold Obligations.IllegalOpLeavesBlockIntact
  refine ⟨fun op arg arg' s hres => ?_, fun c d s t hres ht => ?_⟩
  · have hraise (a : Arg) : execCommand ⟨op, a⟩ s = .next (raiseIllegalOp s) :=
      execCommand_of_isReserved hres s
    exact ⟨hraise arg, (hraise arg').trans (hraise arg).symm⟩
  · rw [execCommand_of_isReserved hres] at ht
    cases ht
    obtain ⟨u, v, r, hu, hv, hbitmaps, hru, hrv⟩ :=
      execCommand_congr_bitmaps d (show (raiseIllegalOp s).bitmaps = s.bitmaps from rfl)
    exact ⟨u, v, hu, hv, hbitmaps, hru.trans hrv.symm⟩

end Sys2Proof.Machine
end

section
/-! PROOFS. The family 70_reset_and_hazards.md: what a block that has just been reset holds, and the
statements O2, O4 and O54. -/

namespace Sys2Proof.Machine

/-! ### Directly after a reset -/

/-- A state directly after a reset holds the reset values: empty bitmaps, no response (R24, R171). -/
theorem resetValues_of_afterReset {s : State}
    (h : s = State.reset ∨ ∃ r, takeEvent .reset r = .next s) :
    s.tbm = 0x0000#16 ∧ s.sbm = [] ∧ s.rsp = none := by
  obtain rfl | ⟨r, hr⟩ := h
  · exact ⟨State.reset_tbm, State.reset_sbm, State.reset_rsp⟩
  · rw [takeEvent_reset] at hr
    cases hr
    exact ⟨resetBlock_tbm r, resetBlock_sbm r, resetBlock_rsp r⟩

/-- TRD leaves the tiny bitmap on the response port (R105). -/
theorem exec_trd_rsp (s : State) :
    ∃ t, exec .trd s = .next t ∧ t.rsp = some ⟨false, zext32 s.tbm⟩ :=
  ⟨_, exec_eq .trd s, rfl⟩

/-- SBRD leaves the addressed byte on the response port (R124). -/
theorem exec_sbrd_rsp (off : ByteOffset) (s : State) :
    ∃ t, exec (.sbrd off) s = .next t ∧ t.rsp = some ⟨false, zext32 (memRead s.sbm off)⟩ :=
  ⟨_, exec_eq (.sbrd off) s, rfl⟩

/-- Settles O2: each command's response rule, applied to the empty bitmaps that a reset leaves, in which
either test finds no index. -/
theorem answersDirectlyAfterReset : Obligations.AnswersDirectlyAfterReset := by
  unfold Obligations.AnswersDirectlyAfterReset
  intro s hs
  obtain ⟨htbm, hsbm, hrsp⟩ := resetValues_of_afterReset hs
  have hread (k : ByteOffset) : memRead s.sbm k = 0x00#8 := hsbm ▸ memRead_nil k
  have htiny (h : TinyIndex) : tinyTest s.tbm h = .notFound := htbm ▸ tinyTest_zero h
  have hsmall (v : SmallIndex) : smallTest s.sbm v = .notFound := smallTest_of_bytes_zero hread v
  refine ⟨htbm, hread, by simp [rspValid, hrsp], ?_, fun k => ?_, fun h => exec_ttest_rsp (htiny h),
    fun v => exec_stest_rsp (hsmall v)⟩
  · obtain ⟨t, ht, htrd⟩ := exec_trd_rsp s
    exact ⟨t, ht, htrd.trans (htbm ▸ rfl)⟩
  · obtain ⟨t, ht, hsbrd⟩ := exec_sbrd_rsp k s
    exact ⟨t, ht, hsbrd.trans (hread k ▸ rfl)⟩

/-! ### Before and after the first reset -/

/-- Settles O4: the step takes the pending event, and a command is admitted only after a reset. -/
theorem noCommandBeforeFirstReset : Obligations.NoCommandBeforeFirstReset := by
  unfold Obligations.NoCommandBeforeFirstReset
  refine ⟨fun c es s hr hp => ?_, fun es s hp => ?_⟩
  · rw [step_of_pending hp, takeEvent_command, State.offer_hasReset, hr]
    rfl
  · exact ⟨resetBlock (s.offer es), (step_of_pending hp).trans (takeEvent_reset _),
      resetBlock_hasReset _, rfl⟩

/-- Settles O54, by induction over the commands: each has a next state, in which a reset has still
occurred, and appends its one response. -/
theorem runOfCommandsAnswersEach : Obligations.RunOfCommandsAnswersEach := by
  unfold Obligations.RunOfCommandsAnswersEach
  intro cs s hr
  induction cs generalizing s with
  | nil => exact ⟨_, [], runEvents_nil s, (List.append_nil _).symm, rfl⟩
  | cons c cs ih =>
    obtain ⟨u, hu⟩ := execCommand_next c (s.offer (cs.map .command))
    obtain ⟨r, hur⟩ := execCommand_received hu
    obtain ⟨t, rs, hrun, hrec, hlen⟩ := ih u ((execCommand_keeps_host hu).2.trans hr)
    refine ⟨t, r :: rs, (runCommands_cons hr hu).trans hrun, ?_, congrArg (· + 1) hlen⟩
    rw [hrec, hur, State.offer_received, List.append_assoc, List.singleton_append]

end Sys2Proof.Machine
end

section
/-! PROOFS. The family of the other statements, first part: what every step keeps, the invariant and the
indices that the filters find; decoding and encoding; the event that a step takes; and the statements O3,
O5 to O8, O11, O12 and O60. -/

namespace Sys2Proof.Machine

/-! ### The invariant -/

/-- A command's one response stands on the port and is the last one observed; with `rsp_err` = 1 it carries
no data (R50, R59). -/
theorem execCommand_response {c : Command} {s t : State} (h : execCommand c s = .next t) :
    ∃ r, t.rsp = some r ∧ t.received = s.received ++ [r] ∧ (r.err = true → r.data = 0) := by
  obtain ⟨i, -, he⟩ | ⟨_, -, he⟩ := execCommand_cases c s
  · rw [he, exec_eq] at h
    cases h
    exact ⟨instrResponse i s, rfl, rfl, by simp [instrResponse_err]⟩
  · rw [he] at h
    cases h
    exact ⟨⟨true, 0⟩, rfl, rfl, fun _ => rfl⟩

/-- A command keeps the invariant. -/
theorem execCommand_inv {c : Command} {s t : State} (h : execCommand c s = .next t) (hs : Inv s) :
    Inv t := by
  obtain ⟨hwf, -, herr⟩ := hs
  obtain ⟨r, hrsp, hrec, hr⟩ := execCommand_response h
  refine ⟨execCommand_sbm_wf h hwf, fun q hq => ?_, fun q hq => ?_⟩
  · rw [hrec, List.getLast?_concat, ← hrsp, hq]
  · rw [hrec, List.mem_append, List.mem_singleton] at hq
    obtain hq | rfl := hq
    · exact herr q hq
    · exact hr

/-- A block whose small bitmap is in canonical form, that shows no response and whose observed responses are
as they should be, meets the invariant. -/
theorem inv_of_rsp_none {s : State} (hwf : s.sbm.wf = true) (hrsp : s.rsp = none)
    (herr : ∀ r ∈ s.received, r.err = true → r.data = 0) : Inv s :=
  ⟨hwf, by simp [hrsp], herr⟩

/-- An event of the host keeps the invariant, whether a command or a reset. -/
theorem takeEvent_inv {e : HostEvent} {s t : State} (h : takeEvent e s = .next t) (hs : Inv s) :
    Inv t := by
  obtain ⟨c, -, -, hc⟩ | ⟨-, rfl⟩ := takeEvent_cases h
  · exact execCommand_inv hc hs
  · exact inv_of_rsp_none rfl (resetBlock_rsp s) hs.err_has_no_data

/-- The invariant does not speak of what the host has still to offer. -/
theorem Inv.offer {s : State} (h : Inv s) (es : List HostEvent) : Inv (s.offer es) :=
  ⟨h.sbm_wf, h.rsp_is_last, h.err_has_no_data⟩

/-- Settles O6: a step is one event of the host, which keeps the invariant. -/
theorem everyStepKeepsInv : Obligations.EveryStepKeepsInv := by
  unfold Obligations.EveryStepKeepsInv
  intro s t hs h
  obtain ⟨e, es, -, he⟩ := step_cases h
  exact takeEvent_inv he (hs.offer es)

/-- Settles O5: neither state shows or has observed a response. -/
theorem resetStateMeetsInv : Obligations.ResetStateMeetsInv := by
  unfold Obligations.ResetStateMeetsInv
  exact ⟨inv_of_rsp_none rfl rfl (by simp), fun t m hwf => inv_of_rsp_none hwf rfl (by simp)⟩

/-! ### Decoding and encoding -/

/-- The command read from a command's word is that command (R51). -/
theorem ofWord_word (c : Command) : Command.ofWord c.word = c := by
  obtain ⟨op, arg⟩ := c
  simp only [Command.ofWord, Command.word, Command.mk.injEq]
  exact ⟨BitVec.extractLsb'_append_eq_left, BitVec.extractLsb'_append_eq_right⟩

/-- An operand of the low `n` bits of `arg`, widened again, is `arg` without the bits above (R53, R58). -/
theorem setWidth_extractLsb'_arg (n : Nat) (arg : Arg) :
    (arg.extractLsb' 0 n).setWidth 256 = arg &&& BitVec.ofNat 256 (2 ^ n - 1) := by
  refine BitVec.eq_of_getLsbD_eq fun b hb => ?_
  rw [BitVec.getLsbD_and, BitVec.getLsbD_ofNat, Nat.testBit_two_pow_sub_one]
  simp [hb, Bool.and_comm]

/-- A command with the opcode of a row of the opcode map decodes to an instruction with the row's mnemonic,
whose encoding is the command without the bits of `arg` that the row's format does not name (R54, R58). -/
theorem decode_pattern {r : OpcodeRow} (hr : r ∈ opcodeRows) (arg : Arg) :
    ∃ i, decode ⟨r.pattern, arg⟩ = .ok i ∧ i.mnemonic = r.mnemonic ∧
      encode i = ⟨r.pattern, arg &&& namedArgBits r.pattern⟩ := by
  rw [Laws.EncodesItsRow.namedArgBits_pattern hr]
  simp only [opcodeRows, List.mem_cons, List.not_mem_nil, or_false] at hr
  rcases hr with rfl | rfl | rfl | rfl | rfl | rfl | rfl | rfl | rfl <;>
    refine ⟨_, rfl, rfl, congrArg (Command.mk _) ?_⟩
  · exact BitVec.and_zero.symm
  · exact setWidth_extractLsb'_arg 16 arg
  · exact setWidth_extractLsb'_arg 16 arg
  · exact BitVec.and_zero.symm
  · exact setWidth_extractLsb'_arg 8 arg
  · exact setWidth_extractLsb'_arg 32 arg
  · exact setWidth_extractLsb'_arg 5 arg
  · exact BitVec.and_allOnes.symm
  · exact BitVec.and_allOnes.symm

/-- An opcode has a row in the opcode map, or it is reserved (R54, R61). -/
theorem opcode_row_or_reserved :
    ∀ op : Opcode, (∃ r ∈ opcodeRows, op = r.pattern) ∨ Opcode.isReserved op = true := by decide

/-- A command that decodes to an instruction is that instruction's encoding, but for the bits of `arg` that
its format does not name (R54, R58). -/
theorem encode_of_decode {c : Command} {i : Instr} (h : decode c = .ok i) :
    encode i = ⟨c.op, c.arg &&& namedArgBits c.op⟩ := by
  obtain ⟨op, arg⟩ := c
  obtain ⟨r, hr, rfl⟩ | hres := opcode_row_or_reserved op
  · obtain ⟨j, hj, -, henc⟩ := decode_pattern hr arg
    cases h.symm.trans hj
    exact henc
  · cases h.symm.trans (decode_of_isReserved (c := ⟨op, arg⟩) hres)

/-- A command's opcode is its decoded instruction's (R54). -/
theorem encode_op_of_decode {c : Command} {i : Instr} (h : decode c = .ok i) :
    (encode i).op = c.op := by
  rw [encode_of_decode h]

/-- Settles O8: `decode_encode` on the command that a word stands for, and for the way back the rows of the
opcode map one by one, in `decode_pattern`. -/
theorem decodeAndEncodeAgree : Obligations.DecodeAndEncodeAgree := by
  unfold Obligations.DecodeAndEncodeAgree
  refine ⟨fun i _ => ?_, fun w i h => encode_of_decode h⟩
  rw [decodeWord, encodeWord, ofWord_word, decode_encode]

/-- A row of the opcode map selects its own opcode and no other (R54). -/
theorem selects_iff : ∀ r ∈ opcodeRows, ∀ op : Opcode, r.selects op = true ↔ op = r.pattern := by
  decide

/-- The rows of the opcode map have different opcodes (R54). -/
theorem opcodeRows_patterns_pairwise : opcodeRows.Pairwise (·.pattern ≠ ·.pattern) := by decide

/-- An opcode without a row is reserved (R54, R61). -/
theorem isReserved_of_rowOf_eq_none :
    ∀ op : Opcode, rowOf op = none → Opcode.isReserved op = true := by decide

/-- Settles O11: a row selects the one opcode of its pattern, and the patterns differ. -/
theorem decoderFollowsOpcodeMap : Obligations.DecoderFollowsOpcodeMap := by
  unfold Obligations.DecoderFollowsOpcodeMap
  refine ⟨opcodeRows_patterns_pairwise.imp_of_mem fun {r q} hr hq hne op => ?_, fun c r hr hsel => ?_,
    fun c hnone => ⟨_, decode_of_isReserved (isReserved_of_rowOf_eq_none _ hnone)⟩⟩
  · rintro ⟨hrop, hqop⟩
    exact hne (((selects_iff r hr op).mp hrop).symm.trans ((selects_iff q hq op).mp hqop))
  · obtain ⟨op, arg⟩ := c
    obtain rfl := (selects_iff r hr op).mp hsel
    obtain ⟨i, hd, hm, -⟩ := decode_pattern hr arg
    exact ⟨i, hd, hm⟩

/-- Settles O7: each word is decoded by the definition of the decoder. -/
theorem writtenOutWordsDecode : Obligations.WrittenOutWordsDecode := by
  unfold Obligations.WrittenOutWordsDecode
  decide

/-! ### One step and the event it takes -/

/-- A step on an offered command, once a reset has occurred, is the execution of that command. -/
theorem step_of_command {c : Command} {es : List HostEvent} {s : State} (hr : s.hasReset = true)
    (hp : s.pending = .command c :: es) : step s = execCommand c (s.offer es) := by
  rw [step_of_pending hp, takeEvent_command, State.offer_hasReset, if_pos hr]

/-- Settles O12: a step executes the offered command, which is what its instruction does. -/
theorem stepRunsDecodedInstruction : Obligations.StepRunsDecodedInstruction := by
  unfold Obligations.StepRunsDecodedInstruction
  intro c es i s hr hp hd _
  rw [step_of_command hr hp]
  simp only [execCommand, hd]

/-- Settles O3: where a reset is requested the step is `resetBlock`, and otherwise it executes the offered
command, which keeps the host's other events and gives one response. -/
theorem resetWinsOverOfferedCommand : Obligations.ResetWinsOverOfferedCommand := by
  unfold Obligations.ResetWinsOverOfferedCommand
  refine ⟨fun c e hd => ?_, fun c es s hp => ?_, fun c es s hp hr => ?_⟩
  · obtain ⟨-, i, hi⟩ | ⟨-, he⟩ := decode_cases c
    · cases hi.symm.trans hd
    · exact Except.error.inj (hd.symm.trans he)
  · have hstep : step s = .next (resetBlock (s.offer es)) := step_of_pending hp
    exact ⟨by simp [cmdReady, hp], hstep, _, hstep, rfl, rfl, rfl⟩
  · obtain ⟨t, ht⟩ := execCommand_next c (s.offer es)
    obtain ⟨r, hrec⟩ := execCommand_received ht
    exact ⟨by simp [cmdReady, hp, hr], t, r, (step_of_command hr hp).trans ht, ht,
      (execCommand_keeps_host ht).1, hrec⟩

/-! ### What one step keeps of both filters -/

/-- After a command the tiny filter holds every mask that it held, and the mask that the command records
(R13, R103). -/
theorem execCommand_tinyMask_subset {c : Command} {s t : State} (h : execCommand c s = .next t)
    {k : TinyIndex} (hk : BitSubset (tinyMask k) s.tbm ∨ decode c = .ok (.tset k)) :
    BitSubset (tinyMask k) t.tbm := by
  refine (bitSubset_iff _ _).mpr fun b hb => (execCommand_tbm_getLsbD h b).mpr ?_
  obtain hsub | hd := hk
  · exact .inl ((bitSubset_iff _ _).mp hsub b hb)
  · exact .inr ⟨k, hd, (tinyMask_getLsbD k b).mp hb⟩

/-- After a command the small filter finds every index of which each addressed bit was set or is the one
that the command sets (R120, R123). -/
theorem execCommand_smallTest {c : Command} {s t : State} (h : execCommand c s = .next t)
    {v : SmallIndex} (hv : ∀ i, probeBit s.sbm (probe8 v i) = true ∨
      decode c = .ok (.sbset (probe8 v i))) : smallTest t.sbm v = .mayExist := by
  refine (smallTest_eq_mayExist_iff _ _).mpr fun i => (execCommand_memBit h _ _).mpr ?_
  exact (hv i).imp_right fun hd => ⟨_, hd, rfl, rfl⟩

/-- Settles O60: a step is a command, which keeps every set bit of both bitmaps and sets the bits it
addresses, or a reset, which leaves both bitmaps empty. -/
theorem everyCommandStepKeepsFoundIndices : Obligations.EveryCommandStepKeepsFoundIndices := by
  unfold Obligations.EveryCommandStepKeepsFoundIndices
  intro s t h
  obtain ⟨e, es, hp, he⟩ := step_cases h
  obtain ⟨c, rfl, -, hc⟩ | ⟨hreset, rfl⟩ := takeEvent_cases he
  · refine .inl ⟨c, es, hp, fun k hk => ?_, fun v hv => execCommand_smallTest hc hv⟩
    have hsub := execCommand_tinyMask_subset hc hk
    exact ⟨hsub, (tinyTest_eq_mayExist_iff _ _).mpr hsub⟩
  · refine .inr ⟨es, ?_, tinyTest_zero, smallTest_of_bytes_zero memRead_nil⟩
    obtain rfl | ⟨c, rfl⟩ := hreset
    · exact .inl hp
    · exact .inr ⟨c, hp⟩

end Sys2Proof.Machine
end

section
/-! PROOFS. The family of the other statements, second part: the vector view; the reducers' words, folds and
single bits; both filters' laws and what their tests answer after a reset; and the statements O16, O22 to
O25, O34 to O36, O44, O45 and O47. -/

namespace Sys2Proof.Machine

/-- Settles O16: the bit of the vector view is the bit that the probe byte addresses. -/
theorem smallBitmapAsVector : Obligations.SmallBitmapAsVector := by
  unfold Obligations.SmallBitmapAsVector
  exact fun m a => ⟨sbmVector_getLsbD m a, (sbmVector_getLsbD m a).trans (probeBit_eq_byte_getLsbD m a)⟩

/-! ### The reducers' words and folds -/

/-- Bit `n` of `reduce32(d)` is the XOR of the bits whose number is `n` modulo 32 (R82). -/
theorem reduce32_getLsbD (d : Digest) {n : Nat} (hn : n < 32) :
    (reduce32 d).getLsbD n = (List.range 8).foldl (fun x j => x ^^ d.getLsbD (n + 32 * j)) false := by
  simp only [reduce32_eq_xorFold, getLsbD_xorFold, BitVec.getLsbD_extractLsb', hn, decide_true,
    Bool.true_and, Nat.add_comm n]

/-- Settles O22: `reduce32` as the XOR of slices, of which bytes and bits are slices again. -/
theorem reduce32IsXorOfEightWords : Obligations.Reduce32IsXorOfEightWords := by
  unfold Obligations.Reduce32IsXorOfEightWords
  refine fun d => ⟨reduce32_eq_xorFold d, fun m hm => ?_, fun n hn => reduce32_getLsbD d hn⟩
  simp only [reduce32_byte d hm, Nat.add_comm m]
  rfl

/-- An XOR of one value more. -/
theorem xorFold_succ {w : Nat} (n : Nat) (f : Nat → BitVec w) :
    xorFold (n + 1) f = xorFold n f ^^^ f n := by
  rw [xorFold, List.range_succ, List.foldl_concat, ← xorFold]

/-- An XOR of an even number of values is that of the ones at odd places and of the ones at even places. -/
theorem xorFold_two_mul {w : Nat} (n : Nat) (f : Nat → BitVec w) :
    xorFold (2 * n) f = xorFold n (fun j => f (2 * j + 1)) ^^^ xorFold n (fun j => f (2 * j)) := by
  induction n with
  | zero => exact BitVec.xor_zero.symm
  | succ n ih =>
    rw [Nat.mul_succ, xorFold_succ, xorFold_succ, ih, xorFold_succ, xorFold_succ]
    ac_rfl

/-- Folding `reduce32` once more gives `reduce16`: the upper and the lower half of its words are the odd and
the even words of `reduce16` (R81, R82). -/
theorem reduce16_eq_fold_reduce32 (d : Digest) :
    reduce16 d = (reduce32 d).extractLsb' 16 16 ^^^ (reduce32 d).extractLsb' 0 16 := by
  rw [reduce16_eq_xorFold, xorFold_two_mul 8, reduce32_eq_xorFold, extractLsb'_xorFold,
    extractLsb'_xorFold]
  simp (disch := omega) only [extractLsb'_extractLsb', Nat.mul_add, ← Nat.mul_assoc, Nat.reduceMul,
    Nat.add_zero]

/-- The two bytes of a 16-bit value put together in the other order, byte by byte. -/
theorem swappedBytes_byte (x : BitVec 16) {m : Nat} (hm : m < 2) :
    (x.extractLsb' 0 8 ++ x.extractLsb' 8 8).extractLsb' (8 * m) 8 = x.extractLsb' (8 * (1 - m)) 8 := by
  interval_cases m
  · exact BitVec.extractLsb'_append_eq_right
  · exact BitVec.extractLsb'_append_eq_left

/-- Under the big-endian reading the folded result has its two bytes swapped (R82). -/
theorem fold_reduce32With_big (d : Digest) :
    (reduce32With .big d).extractLsb' 16 16 ^^^ (reduce32With .big d).extractLsb' 0 16 =
      (reduce16 d).extractLsb' 0 8 ++ (reduce16 d).extractLsb' 8 8 := by
  refine eq_of_bytes (n := 2) rfl fun m hm => ?_
  have hhigh : 16 + 8 * m = 8 * (2 + m) := by omega
  have hlow : 8 * (3 - m) = 16 + 8 * (1 - m) := by omega
  have hhigh' : 8 * (3 - (2 + m)) = 0 + 8 * (1 - m) := by omega
  rw [swappedBytes_byte _ hm, reduce16_eq_fold_reduce32]
  simp (disch := omega) only [BitVec.extractLsb'_xor, extractLsb'_extractLsb']
  rw [hhigh, Nat.zero_add (8 * m), reduce32With_big_byte d (by omega), reduce32With_big_byte d (by omega),
    hlow, hhigh', BitVec.xor_comm]

/-- Settles O23: the halves of `reduce32`'s words, and the digest 1, whose folded result under the other
reading is 0x0100. -/
theorem foldingReduce32GivesReduce16 : Obligations.FoldingReduce32GivesReduce16 := by
  unfold Obligations.FoldingReduce32GivesReduce16
  refine ⟨fun d => ⟨reduce16_eq_fold_reduce32 d, fold_reduce32With_big d⟩, 1#256, ?_⟩
  rw [fold_reduce32With_big]
  decide

/-! ### Linearity, and digests with one bit set -/

/-- The XOR of pairwise XORs is the XOR of the two XORs. -/
theorem xorFold_xor {w : Nat} (n : Nat) (f g : Nat → BitVec w) :
    (xorFold n fun j => f j ^^^ g j) = xorFold n f ^^^ xorFold n g := by
  induction n with
  | zero => exact BitVec.xor_zero.symm
  | succ n ih =>
    rw [xorFold_succ, xorFold_succ, xorFold_succ, ih]
    ac_rfl

/-- `reduce16` is linear over XOR (R81). -/
theorem reduce16_xor (d e : Digest) : reduce16 (d ^^^ e) = reduce16 d ^^^ reduce16 e := by
  simp only [reduce16_eq_xorFold, BitVec.extractLsb'_xor, xorFold_xor]

/-- `reduce32` is linear over XOR (R82). -/
theorem reduce32_xor (d e : Digest) : reduce32 (d ^^^ e) = reduce32 d ^^^ reduce32 e := by
  simp only [reduce32_eq_xorFold, BitVec.extractLsb'_xor, xorFold_xor]

/-- The value with bit `g` alone set has one byte that is not zero, the one that holds the bit. -/
theorem one_shiftLeft_eq_shiftedByte (w g : Nat) :
    1#w <<< g = (1#8 <<< (g % 8)).setWidth w <<< (8 * (g / 8)) := by
  refine BitVec.eq_of_getLsbD_eq fun b hb => Bool.eq_iff_iff.mpr ?_
  rw [← BitVec.twoPow_eq, ← BitVec.twoPow_eq, BitVec.getLsbD_shiftLeft, BitVec.getLsbD_setWidth,
    BitVec.getLsbD_twoPow, BitVec.getLsbD_twoPow]
  simp only [Bool.and_eq_true, Bool.not_eq_true', decide_eq_true_eq, decide_eq_false_iff_not]
  omega

/-- The digest with bit `g` alone set reduces to the bit `g mod 16` alone (R81). -/
theorem reduce16_one_shiftLeft {g : Nat} (hg : g < 256) : reduce16 (1#256 <<< g) = 1#16 <<< (g % 16) := by
  have hpos : g % 16 % 8 = g % 8 := by omega
  have hbyte : g % 16 / 8 = g / 8 % 2 := by omega
  rw [one_shiftLeft_eq_shiftedByte 256, reduce16_shiftedByte _ (by omega), one_shiftLeft_eq_shiftedByte 16,
    hpos, hbyte]

/-- The digest with bit `g` alone set reduces to the bit `g mod 32` alone (R82). -/
theorem reduce32_one_shiftLeft {g : Nat} (hg : g < 256) : reduce32 (1#256 <<< g) = 1#32 <<< (g % 32) := by
  have hpos : g % 32 % 8 = g % 8 := by omega
  have hbyte : g % 32 / 8 = g / 8 % 4 := by omega
  rw [one_shiftLeft_eq_shiftedByte 256, reduce32_shiftedByte _ (by omega), one_shiftLeft_eq_shiftedByte 32,
    hpos, hbyte]

/-- Settles O24: linearity from the XOR of slices, and the reduction of a digest with one bit set. -/
theorem reducersAreLinear : Obligations.ReducersAreLinear := by
  unfold Obligations.ReducersAreLinear
  refine ⟨fun d e => ⟨reduce16_xor d e, reduce32_xor d e⟩, fun d g hg => ⟨?_, ?_⟩⟩
  · rw [reduce16_xor, reduce16_one_shiftLeft hg]
  · rw [reduce32_xor, reduce32_one_shiftLeft hg]

/-- Flipping two different bits of a word changes it. -/
theorem flip_two_bits_ne {w g k : Nat} (d : BitVec w) (hg : g < w) (hne : g ≠ k) :
    d ^^^ (1#w <<< g) ^^^ (1#w <<< k) ≠ d := by
  intro heq
  have hbit := congrArg (·.getLsbD g) heq
  simp only [← BitVec.twoPow_eq, BitVec.getLsbD_xor, BitVec.getLsbD_twoPow] at hbit
  simp [hg, hne.symm] at hbit

/-- Settles O25: the two flipped bits cancel in the result, by linearity. -/
theorem reduce16IsNotInjective : Obligations.Reduce16IsNotInjective := by
  unfold Obligations.Reduce16IsNotInjective
  refine fun d g hg k hk hne hmod => ⟨flip_two_bits_ne d hg hne, ?_⟩
  rw [reduce16_xor, reduce16_xor, reduce16_one_shiftLeft hg, reduce16_one_shiftLeft hk, hmod,
    BitVec.xor_assoc, BitVec.xor_self, BitVec.xor_zero]

/-! ### The tiny filter -/

/-- The response to a filter test is the positive one exactly when it finds its index (R59, R60). -/
theorem isMayExist_iff (f : FilterResult) :
    Response.isMayExist ⟨false, zext32 f.code⟩ ↔ f = .mayExist := by
  rw [← zext32_code_eq_two_iff]
  simp [Response.isMayExist, zext32, FilterResult.code]

/-- The response to a filter test is the negative one exactly when it does not find its index (R59, R60). -/
theorem isNotFound_iff (f : FilterResult) :
    Response.isNotFound ⟨false, zext32 f.code⟩ ↔ f = .notFound := by
  rw [← zext32_code_eq_one_iff]
  simp [Response.isNotFound, zext32, FilterResult.code]

/-- The bits of the OR of some masks, at a probe's place: some index has that probe (R106). -/
theorem recordedMasks_getLsbD_toNat (hs : List TinyIndex) (p : BitVec 4) :
    (recordedMasks hs).getLsbD p.toNat = true ↔ ∃ k ∈ hs, ∃ j, probe4 k j = p := by
  simp only [recordedMasks_getLsbD, BitVec.toNat_inj]

/-- Settles O34: `TBM` after the TSETs is the OR of their masks, which the test reads probe by probe. -/
theorem tinyTestIsExact : Obligations.TinyTestIsExact := by
  unfold Obligations.TinyTestIsExact
  refine ⟨tinyTest_eq_mayExist_iff, fun hs h s => ?_⟩
  obtain ⟨t, hrun, htbm⟩ := runEvents_reset_tsets hs s
  refine ⟨_, _, runEvents_reset_append_encode hrun (exec_eq (.ttest h) t), rfl, ?_, ?_⟩
  · rw [instrResponse, isMayExist_iff, htbm, tinyTest_eq_mayExist_iff_probes]
    simp only [recordedMasks_getLsbD_toNat]
  · rw [instrResponse, isNotFound_iff, htbm, tinyTest_eq_notFound_iff]
    simp only [← Bool.not_eq_true, recordedMasks_getLsbD_toNat, not_exists, not_and, ne_eq]

/-- A subset of bits of a subset is a subset. -/
theorem BitSubset.trans {n : Nat} {x y z : BitVec n} (hxy : BitSubset x y) (hyz : BitSubset y z) :
    BitSubset x z :=
  (bitSubset_iff x z).mpr fun b hb => (bitSubset_iff y z).mp hyz b ((bitSubset_iff x y).mp hxy b hb)

/-- Settles O35: an update is an OR, a test a subset test, and 0xFFFF holds every mask. -/
theorem tinyFilterIsMonotoneAndSaturates : Obligations.TinyFilterIsMonotoneAndSaturates := by
  unfold Obligations.TinyFilterIsMonotoneAndSaturates
  refine ⟨fun bm h => bitSubset_or _ _, fun bm bm' h hsub htest => ?_,
    fun h => ⟨tinyTest_allOnes h, tinyUpdate_of_bitSubset BitVec.and_allOnes⟩⟩
  rw [tinyTest_eq_mayExist_iff] at htest ⊢
  exact htest.trans hsub

/-- The one probe of the index with all four nibbles equal to a bit's number is that number (R63). -/
theorem exists_probe4_allNibbles_iff {b : Nat} (hb : b < 16) (n : Nat) :
    (∃ i, (probe4 (allNibbles (BitVec.ofNat 4 b)) i).toNat = n) ↔ b = n := by
  simp [allNibbles_eq, probe4_replicated, Nat.mod_eq_of_lt hb]

/-- Settles O36: the bits of `TBM` after the TSETs are the probes of their indices, one for each bit of the
target. -/
theorem everyTinyBitmapIsReached : Obligations.EveryTinyBitmapIsReached := by
  unfold Obligations.EveryTinyBitmapIsReached
  intro target s
  obtain ⟨t, hrun, htbm⟩ := runEvents_reset_tsets
    (((List.range 16).filter target.getLsbD).map fun b => allNibbles (BitVec.ofNat 4 b)) s
  rw [List.map_map] at hrun
  refine ⟨t, hrun, BitVec.eq_of_getLsbD_eq fun n hn => Bool.eq_iff_iff.mpr ?_⟩
  rw [htbm, recordedMasks_getLsbD]
  constructor
  · rintro ⟨h, hmem, hprobe⟩
    obtain ⟨b, hb, rfl⟩ := List.mem_map.mp hmem
    obtain ⟨hlt, hset⟩ := List.mem_filter.mp hb
    obtain rfl := (exists_probe4_allNibbles_iff (List.mem_range.mp hlt) n).mp hprobe
    exact hset
  · intro hset
    have hmem : n ∈ (List.range 16).filter target.getLsbD :=
      List.mem_filter.mpr ⟨List.mem_range.mpr hn, hset⟩
    exact ⟨_, List.mem_map_of_mem hmem, (exists_probe4_allNibbles_iff hn n).mpr rfl⟩

/-! ### The small filter -/

/-- Settles O44: in canonical form a small bitmap is its bits, of which `small_setbit` sets one. -/
theorem smallSetbitLaws : Obligations.SmallSetbitLaws := by
  unfold Obligations.SmallSetbitLaws
  refine ⟨fun m o b hwf => ?_, fun m o o' b b' hwf => ?_,
    fun m o k b c hset => (memBit_smallSetbit m o k b c).mpr (.inl hset)⟩
  · refine Memory.ext_of_memBit (smallSetbit_wf o b (smallSetbit_wf o b hwf)) (smallSetbit_wf o b hwf)
      fun k c => ?_
    simp only [memBit_smallSetbit, or_assoc, or_self]
  · refine Memory.ext_of_memBit (smallSetbit_wf o' b' (smallSetbit_wf o b hwf))
      (smallSetbit_wf o b (smallSetbit_wf o' b' hwf)) fun k c => ?_
    simp only [memBit_smallSetbit, or_assoc, or_comm (a := k = o ∧ c = b)]

/-- After a reset and any commands, the bit of a probe byte is set exactly when an SBSET of that probe byte
is among them (R15, R32). -/
theorem runEvents_reset_probeBit (cs : List Command) (s : State) :
    ∃ t, runEvents (.reset :: cs.map .command) s = .next t ∧
      ∀ a, probeBit t.sbm a = true ↔ ∃ c ∈ cs, decode c = .ok (.sbset a) := by
  obtain ⟨t, hrun, hbits, -⟩ := sbmBitMeansProbeByteSet cs s
  refine ⟨t, hrun, fun a => ?_⟩
  rw [probeBit_eq_getLsbD, hbits]
  have hsame (b : ProbeByte) : b.toNat = 8 * (slot a).toNat + (bitpos a).toNat ↔ b = a := by
    rw [← (slot_bitpos_iff a _ _).mp ⟨rfl, rfl⟩, BitVec.toNat_inj]
  simp only [hsame, exists_eq_right]

/-- Settles O45: the bits set after the run are those of the probe bytes set, and STEST tests four. -/
theorem smallTestIsExact : Obligations.SmallTestIsExact := by
  unfold Obligations.SmallTestIsExact
  intro cs v s
  obtain ⟨t, hrun, hbits⟩ := runEvents_reset_probeBit cs s
  refine ⟨_, _, runEvents_reset_append_encode hrun (exec_eq (.stest v) t), rfl, ?_, ?_⟩
  · rw [instrResponse, isMayExist_iff, smallTest_eq_mayExist_iff]
    simp only [hbits]
  · rw [instrResponse, isNotFound_iff, smallTest_eq_notFound_iff]
    simp only [← Bool.not_eq_true, hbits, not_exists, not_and, ne_eq]

/-- The commands that decode to an SBSET are those of opcode 5, whose operand is `arg[7:0]` (R53, R54). -/
theorem decode_eq_sbset_iff (c : Command) (a : ProbeByte) :
    decode c = .ok (.sbset a) ↔ c.op = 0x5#4 ∧ argProbe c.arg = a := by
  constructor
  · intro hd
    have hop : 0x5#4 = c.op := encode_op_of_decode hd
    simpa [decode, ← hop] using hd
  · rintro ⟨hop, rfl⟩
    simp [decode, hop]

/-- `small_setbit` clears no bit of any byte (R121). -/
theorem memRead_smallSetbit_mono (m : Memory) (off : ByteOffset) (bit : BitPosition) (k : ByteOffset) :
    BitSubset (memRead m k) (memRead (smallSetbit m off bit) k) := by
  obtain rfl | hne := eq_or_ne k off
  · rw [memRead_smallSetbit_self]
    exact bitSubset_or _ _
  · rw [memRead_smallSetbit_other m bit hne]
    exact BitVec.and_self

/-- A command clears no bit of any byte of `SBM` (R16). -/
theorem execCommand_sbm_mono {c : Command} {s t : State} (h : execCommand c s = .next t) (k : ByteOffset) :
    BitSubset (memRead s.sbm k) (memRead t.sbm k) := by
  obtain ⟨a, -, hsbm⟩ | ⟨-, hsbm⟩ := execCommand_sbm h
  · exact hsbm ▸ memRead_smallSetbit_mono s.sbm _ _ k
  · exact hsbm ▸ BitVec.and_self

/-- Settles O47: the case split of `execCommand_sbm`, SBSET being the opcode 5, and of the events. -/
theorem sbmOnlyGrowsUnderCommands : Obligations.SbmOnlyGrowsUnderCommands := by
  unfold Obligations.SbmOnlyGrowsUnderCommands
  refine ⟨fun c s t h => ⟨execCommand_sbm_mono h, fun hop => ?_, fun hop k b => ?_⟩, fun e s t h => ?_⟩
  · obtain ⟨a, hd, -⟩ | ⟨-, hsbm⟩ := execCommand_sbm h
    · exact absurd ((decode_eq_sbset_iff c a).mp hd).1 hop
    · exact hsbm
  · simp [execCommand_memBit h, decode_eq_sbset_iff, hop]
  · obtain ⟨c, he, -, hc⟩ | ⟨-, rfl⟩ := takeEvent_cases h
    · exact .inl ⟨c, he, execCommand_sbm_mono hc⟩
    · exact .inr memRead_nil

end Sys2Proof.Machine
end

section
/-! PROOFS. The family of the other statements, third part: what a command reads and what it leaves, by the
unit of its opcode; which instructions commute; what the assembler's statements assemble to; and the
statements O48, O52, O53, O57 and O59. -/

namespace Sys2Proof.Machine

/-! ### What an instruction reads and what it leaves -/

/-- The tiny bitmap after an instruction depends on the tiny bitmap before it alone (R12, R103). -/
theorem instrTbm_congr (i : Instr) {s s' : State} (h : s.tbm = s'.tbm) : instrTbm i s = instrTbm i s' := by
  cases i with
  | tset k => exact congrArg (tinyUpdate · k) h
  | _ => exact h

/-- The small bitmap after an instruction depends on the small bitmap before it alone (R16, R123). -/
theorem instrSbm_congr (i : Instr) {s s' : State} (h : s.sbm = s'.sbm) : instrSbm i s = instrSbm i s' := by
  cases i with
  | sbset a => exact congrArg (smallSetbit · (slot a) (bitpos a)) h
  | _ => exact h

/-- The instructions of unit 0, control and tiny filter (R52, R54). -/
theorem unit_eq_zero_iff (i : Instr) : Opcode.unitField (encode i).op = 0#2 ↔
    i = .nop ∨ (∃ h, i = .tset h) ∨ (∃ h, i = .ttest h) ∨ i = .trd := by
  cases i <;> simp [encode, Opcode.unitField]

/-- The instructions of unit 1, small filter (R52, R54). -/
theorem unit_eq_one_iff (i : Instr) : Opcode.unitField (encode i).op = 1#2 ↔
    (∃ a, i = .sbset a) ∨ (∃ v, i = .stest v) ∨ ∃ off, i = .sbrd off := by
  cases i <;> simp [encode, Opcode.unitField]

/-- An instruction of unit 0 leaves the small bitmap as it was. -/
theorem instrSbm_of_unit_zero {i : Instr} (hu : Opcode.unitField (encode i).op = 0#2) (s : State) :
    instrSbm i s = s.sbm := by
  obtain rfl | ⟨h, rfl⟩ | ⟨h, rfl⟩ | rfl := (unit_eq_zero_iff i).mp hu <;> rfl

/-- An instruction of unit 1 leaves the tiny bitmap as it was. -/
theorem instrTbm_of_unit_one {i : Instr} (hu : Opcode.unitField (encode i).op = 1#2) (s : State) :
    instrTbm i s = s.tbm := by
  obtain ⟨a, rfl⟩ | ⟨v, rfl⟩ | ⟨off, rfl⟩ := (unit_eq_one_iff i).mp hu <;> rfl

/-- An instruction of unit 0 answers by the tiny bitmap alone. -/
theorem instrResponse_congr_tbm {i : Instr} (hu : Opcode.unitField (encode i).op = 0#2) {s s' : State}
    (h : s.tbm = s'.tbm) : instrResponse i s = instrResponse i s' := by
  obtain rfl | ⟨k, rfl⟩ | ⟨k, rfl⟩ | rfl := (unit_eq_zero_iff i).mp hu <;> simp only [instrResponse, h]

/-- An instruction of unit 1 answers by the small bitmap alone. -/
theorem instrResponse_congr_sbm {i : Instr} (hu : Opcode.unitField (encode i).op = 1#2) {s s' : State}
    (h : s.sbm = s'.sbm) : instrResponse i s = instrResponse i s' := by
  obtain ⟨a, rfl⟩ | ⟨v, rfl⟩ | ⟨off, rfl⟩ := (unit_eq_one_iff i).mp hu <;> simp only [instrResponse, h]

/-- Settles O48: a reserved opcode reads nothing; an instruction's effect on a bitmap reads that bitmap, and
its response the bitmap of its unit. -/
theorem filtersAreUnrelated : Obligations.FiltersAreUnrelated := by
  unfold Obligations.FiltersAreUnrelated
  intro c s s' t t' ht ht'
  obtain ⟨-, i, hd⟩ | ⟨hres, -⟩ := decode_cases c
  · rw [execCommand_of_decode hd] at ht ht'
    cases ht
    cases ht'
    rw [← encode_op_of_decode hd]
    exact ⟨instrTbm_congr i, instrSbm_congr i,
      fun h hu => congrArg some (instrResponse_congr_tbm hu h),
      fun h hu => congrArg some (instrResponse_congr_sbm hu h)⟩
  · rw [execCommand_of_isReserved hres] at ht ht'
    cases ht
    cases ht'
    exact ⟨id, id, fun _ _ => rfl, fun _ _ => rfl⟩

/-- An update leaves each bit outside the mask of its index as it was (R101). -/
theorem tinyUpdate_getLsbD_of_not_mask (bm : TinyBitmap) {h : TinyIndex} {b : Nat}
    (hb : (tinyMask h).getLsbD b = false) : (tinyUpdate bm h).getLsbD b = bm.getLsbD b := by
  rw [tinyUpdate, BitVec.getLsbD_or, hb, Bool.or_false]

/-- Settles O52: `exec_eq` says what an instruction leaves, constructor by constructor. -/
theorem instructionFrames : Obligations.InstructionFrames := by
  unfold Obligations.InstructionFrames
  intro i s t h
  rw [exec_eq] at h
  cases h
  refine ⟨⟨rfl, rfl, instrResponse i s, rfl, rfl⟩, ?_⟩
  cases i with
  | tset h => exact ⟨fun b hb => tinyUpdate_getLsbD_of_not_mask s.tbm hb, fun _ => rfl⟩
  | sbset a => exact ⟨rfl, fun k hk => memRead_smallSetbit_other s.sbm _ hk⟩
  | _ => exact ⟨rfl, fun _ => rfl⟩

/-- Settles O53, by `execCommand_congr_bitmaps`. -/
theorem commandsDependOnBitmapsAlone : Obligations.CommandsDependOnBitmapsAlone := by
  unfold Obligations.CommandsDependOnBitmapsAlone
  exact fun c s s' h => execCommand_congr_bitmaps c h

/-! ### Which instructions commute -/

/-- The state an instruction leaves. -/
def instrNext (i : Instr) (s : State) : State :=
  State.give { s with tbm := instrTbm i s, sbm := instrSbm i s } (instrResponse i s)

/-- An instruction's next state is `instrNext` (R141). -/
theorem exec_eq_instrNext (i : Instr) (s : State) : exec i s = .next (instrNext i s) := exec_eq i s

/-- From `s` the instructions `c` and `d` leave the same bitmaps in either order, each giving the same
response in both (20_memory.md section 4). -/
def CommuteFrom (s : State) (c d : Instr) : Prop :=
  ∃ t u t' u', exec c s = .next t ∧ exec d t = .next u ∧ exec d s = .next t' ∧
    exec c t' = .next u' ∧ u.bitmaps = u'.bitmaps ∧ t.rsp = u'.rsp ∧ u.rsp = t'.rsp

/-- Two instructions commute when the bitmaps they leave agree and neither changes the other's response. -/
theorem commuteFrom_of_instrNext {c d : Instr} {s : State}
    (hbm : (instrNext d (instrNext c s)).bitmaps = (instrNext c (instrNext d s)).bitmaps)
    (hc : instrResponse c (instrNext d s) = instrResponse c s)
    (hd : instrResponse d (instrNext c s) = instrResponse d s) : CommuteFrom s c d :=
  ⟨_, _, _, _, exec_eq_instrNext c s, exec_eq_instrNext d _, exec_eq_instrNext d s,
    exec_eq_instrNext c _, hbm, congrArg some hc.symm, congrArg some hd⟩

/-- An instruction that leaves both bitmaps commutes with one that does not change its response. -/
theorem commuteFrom_of_keeps {c d : Instr} {s : State} (hc : ∀ s, (instrNext c s).bitmaps = s.bitmaps)
    (hresp : instrResponse c (instrNext d s) = instrResponse c s) : CommuteFrom s c d := by
  obtain ⟨htbm, hsbm, hd⟩ := instr_congr_bitmaps d (hc s)
  exact commuteFrom_of_instrNext ((Prod.ext htbm hsbm).trans (hc _).symm) hresp hd

/-- An instruction of unit 0 and one of unit 1 commute: each keeps the bitmap that the other uses. -/
theorem commuteFrom_of_units {c d : Instr} (hc : Opcode.unitField (encode c).op = 0#2)
    (hd : Opcode.unitField (encode d).op = 1#2) (s : State) : CommuteFrom s c d := by
  have htbm (u : State) : (instrNext d u).tbm = u.tbm := instrTbm_of_unit_one hd u
  have hsbm (u : State) : (instrNext c u).sbm = u.sbm := instrSbm_of_unit_zero hc u
  refine commuteFrom_of_instrNext (Prod.ext ?_ ?_) (instrResponse_congr_tbm hc (htbm s))
    (instrResponse_congr_sbm hd (hsbm s))
  · exact (htbm _).trans (instrTbm_congr c (htbm s)).symm
  · exact (instrSbm_congr d (hsbm s)).trans (hsbm (instrNext d s)).symm

/-- NOP, RED16 and RED32 commute with every instruction: they use neither bitmap. -/
theorem commuteFrom_of_no_bitmap {c : Instr}
    (hc : c = .nop ∨ (∃ x, c = .red16 x) ∨ ∃ x, c = .red32 x) (d : Instr) (s : State) :
    CommuteFrom s c d := by
  obtain rfl | ⟨x, rfl⟩ | ⟨x, rfl⟩ := hc <;> exact commuteFrom_of_keeps (fun _ => rfl) rfl

/-- TRD, TTEST, STEST and SBRD leave both bitmaps. -/
theorem instrNext_bitmaps_of_read {i : Instr}
    (hi : i = .trd ∨ (∃ x, i = .ttest x) ∨ (∃ x, i = .stest x) ∨ ∃ x, i = .sbrd x) (s : State) :
    (instrNext i s).bitmaps = s.bitmaps := by
  obtain rfl | ⟨x, rfl⟩ | ⟨x, rfl⟩ | ⟨x, rfl⟩ := hi <;> rfl

/-- Two reading instructions commute. -/
theorem commuteFrom_of_reads {c d : Instr} (hc : ∀ s, (instrNext c s).bitmaps = s.bitmaps)
    (hd : ∀ s, (instrNext d s).bitmaps = s.bitmaps) (s : State) : CommuteFrom s c d := by
  obtain ⟨-, -, hresp⟩ := instr_congr_bitmaps c (hd s)
  exact commuteFrom_of_keeps hc hresp

/-- Two TSETs leave the same bitmaps in either order (R106). -/
theorem runCommands_tset_pair (h k : TinyIndex) {s : State} (hr : s.hasReset = true) :
    ∃ t u, runCommands [encode (.tset h), encode (.tset k)] s = .next t ∧
      runCommands [encode (.tset k), encode (.tset h)] s = .next u ∧ t.bitmaps = u.bitmaps := by
  obtain ⟨hcomm, -⟩ := tbmIsOrOfRecordedMasks
  exact ⟨_, _, runCommands_encode_pair hr (exec_eq _ _) (exec_eq _ _),
    runCommands_encode_pair hr (exec_eq _ _) (exec_eq _ _), Prod.ext (hcomm s.tbm h k).1 rfl⟩

/-- Settles O57: an instruction's unit says what it uses, the order of a run's SBSETs does not matter to the
bitmaps, and TSETs and TTESTs of the indices 0x0000 and 0x1111 from reset show where responses differ. -/
theorem commutingCommands : Obligations.CommutingCommands := by
  unfold Obligations.CommutingCommands
  refine ⟨fun c d s h => ?_, fun h k s hr => runCommands_tset_pair h k hr,
    fun a b s hr hwf => runCommands_bitmaps_of_perm hr hwf (List.Perm.swap _ _ _), ?_, ?_⟩
  · obtain hc | ⟨hc, hd⟩ | ⟨hc, hd⟩ := h
    · exact commuteFrom_of_no_bitmap hc d s
    · exact commuteFrom_of_reads (instrNext_bitmaps_of_read hc) (instrNext_bitmaps_of_read hd) s
    · refine commuteFrom_of_units ((unit_eq_zero_iff c).mpr ?_) ((unit_eq_one_iff d).mpr hd) s
      obtain h | h | h := hc
      · exact .inr (.inr (.inr h))
      · exact .inr (.inl h)
      · exact .inr (.inr (.inl h))
  · exact ⟨0x0000#16, 0x1111#16, _, _, runCommands_encode_pair rfl (exec_eq _ _) (exec_eq _ _),
      runCommands_encode_pair rfl (exec_eq _ _) (exec_eq _ _), by decide⟩
  · exact ⟨0x0000#16, _, _, runCommands_encode_pair rfl (exec_eq _ _) (exec_eq _ _),
      runCommands_encode_pair rfl (exec_eq _ _) (exec_eq _ _), by decide⟩

/-! ### The host's assembler -/

/-- A statement whose operands fit and whose one event is an instruction's encoding assembles to that
instruction (R62). -/
theorem AsmStmt.assemblesTo_of_events {a : AsmStmt} {i : Instr} (hcheck : a.check = .ok ())
    (hev : a.events = [.command (encode i)]) : a.AssemblesTo i :=
  ⟨encode i, hev ▸ AsmStmt.assemble_of_check hcheck, decode_encode i, rfl⟩

/-- A word is read back from its value. -/
theorem ofNat_toNat_self {n : Nat} (v : BitVec n) : BitVec.ofNat n v.toNat = v := by
  rw [BitVec.ofNat_toNat, BitVec.setWidth_eq]

/-- A statement with one operand, checked by its width and assembled to one instruction of that operand,
assembles to that instruction when the operand is a word's value (R62). -/
theorem assemblesTo_of_operand {n : Nat} {a : AsmStmt} {i : BitVec n → Instr} (v : BitVec n)
    (hcheck : a.check = if fits n v.toNat then .ok () else .error .operandDoesNotFit)
    (hev : a.events = [.command (encode (i (BitVec.ofNat n v.toNat)))]) : a.AssemblesTo (i v) :=
  AsmStmt.assemblesTo_of_events (hcheck.trans (if_pos (fits_toNat v))) (ofNat_toNat_self v ▸ hev)

/-- `.RAW` of an opcode and an operand that fit is that command as written (R62). -/
theorem raw_assemble (op : Opcode) (arg : Arg) :
    (AsmStmt.raw op.toNat arg.toNat).assemble = .ok [.command ⟨op, arg⟩] := by
  have hfit : (fits 4 op.toNat && fits 256 arg.toNat) = true := by
    rw [fits_toNat, fits_toNat, Bool.and_self]
  rw [AsmStmt.assemble_of_check (a := .raw op.toNat arg.toNat) (if_pos hfit), AsmStmt.events,
    ofNat_toNat_self, ofNat_toNat_self]

/-- `off << 3 | bit` is the number `8*off + bit` (R31, R62). -/
theorem probeOf_eq_ofNat (off : ByteOffset) (bit : BitPosition) :
    probeOf off bit = BitVec.ofNat 8 (8 * off.toNat + bit.toNat) := by
  revert off bit
  decide

/-- `SBSET off, bit` is the SBSET of the probe byte `8*off + bit` (R62). -/
theorem sbsetAt_assemblesTo (off : ByteOffset) (bit : BitPosition) :
    (AsmStmt.sbsetAt off.toNat bit.toNat).AssemblesTo
      (.sbset (BitVec.ofNat 8 (8 * off.toNat + bit.toNat))) := by
  refine AsmStmt.assemblesTo_of_events (if_pos ?_) ?_
  · rw [fits_toNat, fits_toNat, Bool.and_self]
  · rw [AsmStmt.events, ofNat_toNat_self, ofNat_toNat_self, probeOf_eq_ofNat]

/-- A literal is a digest exactly when it has 64 digits, each below 16 (R62). -/
theorem isDigest_iff (ds : List Nat) : isDigest ds = true ↔ ds.length = 64 ∧ ∀ x ∈ ds, x < 16 := by
  simp [isDigest, fits]

/-- Two digits are byte `i` of the number a literal stands for, the first of them the high nibble (R57,
R62). -/
theorem digestOfDigits_byte {ds : List Nat} (hds : ∀ x ∈ ds, x < 16) {i : Nat}
    (hi : 2 * i + 1 < ds.length) :
    digestOfDigits ds / 256 ^ i % 256 = 16 * ds.getD (2 * i) 0 + ds.getD (2 * i + 1) 0 := by
  induction ds using digestOfDigits.induct generalizing i with
  | case1 high low ds ih =>
    obtain ⟨hhigh, hlow, hrest⟩ : high < 16 ∧ low < 16 ∧ ∀ x ∈ ds, x < 16 := by simpa using hds
    rw [digestOfDigits]
    cases i with
    | zero =>
      have hbyte : 16 * high + low < 256 := by omega
      rw [Nat.pow_zero, Nat.div_one, Nat.add_mul_mod_self_left, Nat.mod_eq_of_lt hbyte]
      rfl
    | succ i =>
      have hdiv : (16 * high + low + 256 * digestOfDigits ds) / 256 = digestOfDigits ds := by omega
      rw [Nat.pow_succ', ← Nat.div_div_eq_div_mul, hdiv]
      exact ih hrest (by simp only [List.length_cons] at hi; omega)
  | case2 ds hshort =>
    match ds, hi with
    | high :: low :: ds, _ => exact (hshort high low ds rfl).elim

/-- A slice of the word of a number is the word of the shifted number. -/
theorem extractLsb'_ofNat_of_le {w start len : Nat} (h : start + len ≤ w) (n : Nat) :
    (BitVec.ofNat w n).extractLsb' start len = BitVec.ofNat len (n >>> start) := by
  refine BitVec.eq_of_getLsbD_eq fun b hb => ?_
  have hbw : start + b < w := by omega
  rw [BitVec.getLsbD_extractLsb', BitVec.getLsbD_ofNat, BitVec.getLsbD_ofNat, Nat.testBit_shiftRight]
  simp only [hb, hbw, decide_true, Bool.true_and]

/-- The digest of a literal: byte `i` is the digits `2i` and `2i+1` in reading order (R57, R62). -/
theorem dbyte_of_digits {ds : List Nat} (hlen : ds.length = 64) (hds : ∀ x ∈ ds, x < 16) {i : Nat}
    (hi : i < 32) : (dbyte (BitVec.ofNat 256 (digestOfDigits ds)) i).toNat =
      16 * ds.getD (2 * i) 0 + ds.getD (2 * i + 1) 0 := by
  rw [dbyte, extractLsb'_ofNat_of_le (by omega), BitVec.toNat_ofNat, Nat.shiftRight_eq_div_pow, Nat.pow_mul]
  exact digestOfDigits_byte hds (by omega)

/-- A statement with an operand that is refused does not assemble (R62). -/
theorem AsmStmt.assemble_of_check_error {a : AsmStmt} {e : AsmError} (h : a.check = .error e) :
    a.assemble = .error e := by
  simp only [AsmStmt.assemble, h]

/-- A number of more than `n` bits does not fit (R62). -/
theorem fits_eq_false_iff (n v : Nat) : fits n v = false ↔ 2 ^ n ≤ v := by
  rw [fits, decide_eq_false_iff_not, Nat.not_lt]

/-- A statement whose check is of a condition that does not hold is refused for the check's reason. -/
theorem AsmStmt.assemble_of_not {a : AsmStmt} {p : Bool} {e : AsmError}
    (hcheck : a.check = if p then .ok () else .error e) (hp : p = false) : a.assemble = .error e :=
  AsmStmt.assemble_of_check_error (hcheck.trans (if_neg (Bool.eq_false_iff.mp hp)))

/-- Settles O59: each statement's check and events by its equation, and `decode_encode` for what its events
decode to. -/
theorem assembledStatementsDecode : Obligations.AssembledStatementsDecode := by
  unfold Obligations.AssembledStatementsDecode
  refine ⟨AsmStmt.assemblesTo_of_events rfl rfl, AsmStmt.assemblesTo_of_events rfl rfl, rfl,
    fun n => ⟨assemblesTo_of_operand (i := .tset) n rfl rfl, assemblesTo_of_operand (i := .ttest) n rfl rfl⟩,
    fun n => assemblesTo_of_operand (i := .stest) n rfl rfl,
    fun n => assemblesTo_of_operand (i := .sbset) n rfl rfl, sbsetAt_assemblesTo,
    fun n => assemblesTo_of_operand (i := .sbrd) n rfl rfl, fun ds hlen hds => ?_, raw_assemble,
    fun a es hraw hasm c hc => ?_, fun n => ?_, fun n k => ?_, fun ds hds => ?_⟩
  · have hdigest : isDigest ds = true := (isDigest_iff ds).mpr ⟨hlen, hds⟩
    exact ⟨_, AsmStmt.assemblesTo_of_events (if_pos hdigest) rfl,
      AsmStmt.assemblesTo_of_events (if_pos hdigest) rfl, fun i hi => dbyte_of_digits hlen hds hi⟩
  · rw [AsmStmt.events_of_assemble hasm] at hc
    obtain ⟨i, rfl⟩ := AsmStmt.eq_encode_of_mem_events hraw hc
    exact ⟨i, decode_encode i, rfl⟩
  · simp only [← fits_eq_false_iff]
    exact ⟨fun h => ⟨AsmStmt.assemble_of_not rfl h, AsmStmt.assemble_of_not rfl h⟩,
      fun h => ⟨AsmStmt.assemble_of_not rfl h, AsmStmt.assemble_of_not rfl h⟩,
      AsmStmt.assemble_of_not rfl, AsmStmt.assemble_of_not rfl, AsmStmt.assemble_of_not rfl⟩
  · simp only [← fits_eq_false_iff, ← Bool.and_eq_false_iff]
    exact ⟨AsmStmt.assemble_of_not rfl, AsmStmt.assemble_of_not rfl⟩
  · have hdigest : isDigest ds = false := by
      rw [← Bool.not_eq_true, isDigest_iff]
      simpa [imp_iff_not_or] using hds
    exact ⟨AsmStmt.assemble_of_not rfl hdigest, AsmStmt.assemble_of_not rfl hdigest⟩

end Sys2Proof.Machine
end
